-- ==== Sys2Proof/Word.lean ====
section
/-! DEFINITION. The widths of the block's values (spec/10_state.md R20, spec/00_scope.md R9, R11). All values are
unsigned bit vectors, bit 0 the least significant. -/

namespace Sys2Proof

/-- One byte of the Code Store, and the width of `cur_byte` (R20, R50). -/
abbrev Byte := BitVec 8

/-- The step index held in `phase`: `PHASE_W = 7` bits (R9, R21). -/
abbrev Phase := BitVec 7

/-- The tick generator's counter: `TMR_W = 16` bits (R9, R28). -/
abbrev Count := BitVec 16

/-- A whole megacode: three bytes, most significant first (R54). -/
abbrev Megacode := BitVec 24

end Sys2Proof
end

