-- ==== Sys2Proof/Syntax.lean ====
section
/-! DEFINITION. The operations of the block, one constructor per row of spec/opcode_table.json (spec/30_encoding.md
R87). An operation's arguments are the free fields of the value that selects it (log 9). -/

namespace Sys2Proof

/-- The block "is not a processor and has no instruction set. It has *operations*" (spec/00_scope.md R2). -/
inductive Instr where
  /-- PAUSE_A, `phase = oorrr00` (R121): `o` the Code Store byte offset, `r` the bit's index in its byte group. -/
  | pauseA (o : BitVec 2) (r : BitVec 3)
  /-- WINDOW_A, `phase = oorrr01` (R122). -/
  | windowA (o : BitVec 2) (r : BitVec 3)
  /-- PAUSE_B, `phase = oorrr10` (R123). -/
  | pauseB (o : BitVec 2) (r : BitVec 3)
  /-- WINDOW_B, `phase = oorrr11` (R124). -/
  | windowB (o : BitVec 2) (r : BitVec 3)
  /-- BLANK, `phase = 1100000` (R125). -/
  | blank
  /-- BOUNDARY, `phase = 1100001` (R126). -/
  | boundary
  /-- RSVD_STEP, `phase = 11xxxxx`, 98 or above (R127). -/
  | rsvdStep (x : BitVec 5)
  /-- PRESS, `ev = t10` (R100): `t` says whether a Tick falls in the same cycle. -/
  | press (t : Bool)
  /-- RELEASE, `ev = t01` (R101). -/
  | release (t : Bool)
  /-- TICK, `ev = 1qn` (R102): `q`, `n` are `btn_q`, `btn_n`. -/
  | tick (q n : Bool)
  /-- NOEVENT, `ev = 0qq` (R103). -/
  | noevent (q : Bool)
  /-- SAMPLE, `{btn_q, btn_n} = qn` (R140): `n` is the level the line has now. -/
  | sample (q n : Bool)
  /-- ARM_SHORT, issued by the step `phase = pppppp1` (R151): `p` is `phase[6:1]`. -/
  | armShort (p : BitVec 6)
  /-- ARM_LONG, issued by the step `phase = pppppp0` (R152): `p` is `phase[6:1]`. -/
  | armLong (p : BitVec 6)
  /-- COUNT, `{tmr_run, tmr_cnt} = 1c`, `c` at least 2 (R153). -/
  | count (c : Count)
  /-- EXPIRE, `{tmr_run, tmr_cnt} = 1` followed by the count 1 (R154). -/
  | expire
  /-- HOLD, `{tmr_run, tmr_cnt} = 0c` (R155). -/
  | hold (c : Count)
  /-- CYCLE, `rst = 0` (R165). -/
  | cycle
  /-- RESET, `rst = 1` (R210). -/
  | reset
  /-- WAIT, `mode = 00` (R200). -/
  | wait
  deriving DecidableEq, Repr

end Sys2Proof
end

