-- ==== Sys2Proof/WellFormed.lean ====
section
/-! DEFINITION. Which operations have an encoding: the constraints of spec/opcode_table.json and of the rules it
cites. -/

namespace Sys2Proof

/-- An operation's fields meet the constraint of its row: a bit step has `phase <= 95`, so its offset is 0..2 (R73,
R74); a reserved step is at 98 or above (R84, R127); the timer is armed by a step of index 0..97 (R151, R152); COUNT
has `tmr_cnt >= 2` (R153). -/
def wellFormed : Instr → Bool
  | .pauseA o _ => o != 3#2
  | .windowA o _ => o != 3#2
  | .pauseB o _ => o != 3#2
  | .windowB o _ => o != 3#2
  | .blank => true
  | .boundary => true
  | .rsvdStep x => decide (2#5 ≤ x)
  | .press _ => true
  | .release _ => true
  | .tick _ _ => true
  | .noevent _ => true
  | .sample _ _ => true
  | .armShort p => decide (p ≤ 48#6)
  | .armLong p => decide (p ≤ 48#6)
  | .count c => decide (2#16 ≤ c)
  | .expire => true
  | .hold _ => true
  | .cycle => true
  | .reset => true
  | .wait => true

end Sys2Proof
end

