-- ==== Sys2Proof/Decode.lean ====
section
/-! DEFINITION. The decoders of spec/30_encoding.md: each of the block's selecting values (the step index, the event
vector, the button pair, the timer pair, the reset line, the mode) to the operations it selects (R73, R74, R80, R81,
R87), total on any bytes; then the encoder, from the same tables. -/

namespace Sys2Proof

/-- Which value is decoded: the `format` column of the operation table (R87). `phase7` is read twice, once for the step
and once, by its bit 0, for the interval the step arms (R73 field `s`, R75). -/
inductive Selector where
  | step | arm | event | button | timer | resetLine | mode
  deriving DecidableEq, Repr

/-- Why a word is not an operation. -/
inductive Reject where
  /-- Not as many bytes as the selecting value takes. -/
  | wrongLength
  /-- A bit above the selecting value's width is set. -/
  | strayBits
  /-- ARM_SHORT or ARM_LONG at a step index of 98 or above: a reserved step arms nothing (R84, R127). -/
  | reservedPhase
  /-- `mode = 0b11`, the unused encoding (R24, R84). -/
  | reservedMode
  /-- `mode` is Transmitting or Finishing: WAIT is not selected (R87, R200). -/
  | notWaiting
  deriving DecidableEq, Repr

/-- The selecting value's width in bits (R87). -/
def selectorWidth : Selector → Nat
  | .step => 7
  | .arm => 7
  | .event => 3
  | .button => 2
  | .timer => 17
  | .resetLine => 1
  | .mode => 2

/-- The number of bytes that hold it. -/
def selectorBytes (sel : Selector) : Nat := (selectorWidth sel + 7) / 8

/-! ### Fields of the step index (R73) -/

/-- `q = phase[1:0]`, the quarter of the bit slot. -/
def phaseQ (p : Phase) : BitVec 2 := p.extractLsb' 0 2

/-- `b = phase[6:2]`, the transmission index. -/
def phaseB (p : Phase) : BitVec 5 := p.extractLsb' 2 5

/-- `o = phase[6:5]`, the Code Store byte offset. -/
def phaseO (p : Phase) : BitVec 2 := p.extractLsb' 5 2

/-- `r = phase[4:2]`, the bit's index inside its byte group. -/
def phaseR (p : Phase) : BitVec 3 := p.extractLsb' 2 3

/-! ### The decoders -/

/-- Step selection in the priority order of R74 (and of the dispatch R120): BLANK and BOUNDARY before the bit steps,
98 and above reserved. -/
def decodePhase (p : Phase) : Instr :=
  if p = 96#7 then .blank
  else if p = 97#7 then .boundary
  else if 98#7 ≤ p then .rsvdStep (p.extractLsb' 0 5)
  else if phaseQ p = 0#2 then .pauseA (phaseO p) (phaseR p)
  else if phaseQ p = 1#2 then .windowA (phaseO p) (phaseR p)
  else if phaseQ p = 2#2 then .pauseB (phaseO p) (phaseR p)
  else .windowB (phaseO p) (phaseR p)

/-- Interval selection (R75): a step of even index arms long, one of odd index short; reserved steps arm nothing. -/
def decodeArm (p : Phase) : Except Reject Instr :=
  if 98#7 ≤ p then .error .reservedPhase
  else if p.getLsbD 0 then .ok (.armShort (p.extractLsb' 1 6))
  else .ok (.armLong (p.extractLsb' 1 6))

/-- The events of a cycle in handling order (R80, R81): Tick, then Press or Release; NOEVENT when there is none, or
when `gie = 0` whatever the vector is (R103). `ev = {tick, btn_q, btn_n}`. -/
def decodeEvent (gie : Bool) (ev : BitVec 3) : List Instr :=
  let t := ev.getLsbD 2
  let q := ev.getLsbD 1
  let n := ev.getLsbD 0
  if gie && (t || q != n) then
    (if t then [.tick q n] else []) ++
      (if q && !n then [.press t] else if !q && n then [.release t] else [])
  else [.noevent q]

/-- SAMPLE runs on every value of `{btn_q, btn_n}` (R140). -/
def decodeButton (w : BitVec 2) : Instr := .sample (w.getLsbD 1) (w.getLsbD 0)

/-- The tick generator's operation by `{tmr_run, tmr_cnt}` (R153, R154, R155). The unreachable pair
`tmr_run = 1, tmr_cnt = 0` is a HOLD, as R155 allows (log 8). -/
def decodeTimer (w : BitVec 17) : Instr :=
  let c : Count := w.extractLsb' 0 16
  if w.getLsbD 16 then
    if c = 1#16 then .expire
    else if c = 0#16 then .hold 0#16
    else .count c
  else .hold c

/-- The operation of a clock edge by `rst` (R165, R210). -/
def decodeReset (rst : Bool) : Instr := if rst then .reset else .cycle

/-- WAIT is selected by `mode = 0b00` (R87, R200). -/
def decodeMode (w : BitVec 2) : Except Reject Instr :=
  if w = 0#2 then .ok .wait
  else if w = 3#2 then .error .reservedMode
  else .error .notWaiting

/-- Bytes as one number, bit 0 the least significant bit of the first byte (the operation table's numbering). -/
def wordOfBytes : List Byte → Nat
  | [] => 0
  | b :: bs => b.toNat + 256 * wordOfBytes bs

/-- The `n` bytes of a number, least significant first. -/
def bytesOfWord : Nat → Nat → List Byte
  | 0, _ => []
  | n + 1, w => BitVec.ofNat 8 w :: bytesOfWord n (w / 256)

/-- The operations that a selecting value of the right width names (the event vector as it is read with `gie = 1`, its
rows' constraint). -/
def decodeWord (sel : Selector) (w : Nat) : Except Reject (List Instr) :=
  match sel with
  | .step => .ok [decodePhase (BitVec.ofNat 7 w)]
  | .arm => (decodeArm (BitVec.ofNat 7 w)).map (fun i => [i])
  | .event => .ok (decodeEvent true (BitVec.ofNat 3 w))
  | .button => .ok [decodeButton (BitVec.ofNat 2 w)]
  | .timer => .ok [decodeTimer (BitVec.ofNat 17 w)]
  | .resetLine => .ok [decodeReset (BitVec.ofNat 1 w).msb]
  | .mode => (decodeMode (BitVec.ofNat 2 w)).map (fun i => [i])

/-- The decoder, total on any bytes: the operations, in the order they are handled, that the selecting value held in
these bytes names. Only the event vector names two. -/
def decode (sel : Selector) (bytes : List Byte) : Except Reject (List Instr) :=
  if bytes.length ≠ selectorBytes sel then .error .wrongLength
  else if 2 ^ selectorWidth sel ≤ wordOfBytes bytes then .error .strayBits
  else decodeWord sel (wordOfBytes bytes)

/-! ### The encoder -/

/-- The selecting value an operation is decoded from: the `format` column of its row (R87). -/
def selectorOf : Instr → Selector
  | .pauseA _ _ => .step
  | .windowA _ _ => .step
  | .pauseB _ _ => .step
  | .windowB _ _ => .step
  | .blank => .step
  | .boundary => .step
  | .rsvdStep _ => .step
  | .press _ => .event
  | .release _ => .event
  | .tick _ _ => .event
  | .noevent _ => .event
  | .sample _ _ => .button
  | .armShort _ => .arm
  | .armLong _ => .arm
  | .count _ => .timer
  | .expire => .timer
  | .hold _ => .timer
  | .cycle => .resetLine
  | .reset => .resetLine
  | .wait => .mode

/-- The selecting value of an operation: the `encoding` column of its row (spec/opcode_table.json). -/
def encodeWord : Instr → Nat
  | .pauseA o r => (o ++ r ++ 0b00#2).toNat
  | .windowA o r => (o ++ r ++ 0b01#2).toNat
  | .pauseB o r => (o ++ r ++ 0b10#2).toNat
  | .windowB o r => (o ++ r ++ 0b11#2).toNat
  | .blank => 0b1100000
  | .boundary => 0b1100001
  | .rsvdStep x => (0b11#2 ++ x).toNat
  | .press t => (BitVec.ofBool t ++ 0b10#2).toNat
  | .release t => (BitVec.ofBool t ++ 0b01#2).toNat
  | .tick q n => (0b1#1 ++ BitVec.ofBool q ++ BitVec.ofBool n).toNat
  | .noevent q => (0b0#1 ++ BitVec.ofBool q ++ BitVec.ofBool q).toNat
  | .sample q n => (BitVec.ofBool q ++ BitVec.ofBool n).toNat
  | .armShort p => (p ++ 0b1#1).toNat
  | .armLong p => (p ++ 0b0#1).toNat
  | .count c => (0b1#1 ++ c).toNat
  | .expire => 0b10000000000000001
  | .hold c => (0b0#1 ++ c).toNat
  | .cycle => 0b0
  | .reset => 0b1
  | .wait => 0b00

/-- The bytes of a well-formed operation's selecting value. -/
def encode (i : Instr) : List Byte := bytesOfWord (selectorBytes (selectorOf i)) (encodeWord i)

/-! ### The host's view of the operation table -/

/-- Which selecting value a bare table word of `nbits` bits is read as (log 6): the table numbers six different values,
and most of its words are words of several of them. A word of one byte is the step index, the block's only sequencing
register (R21); a word of two or three bytes is the timer pair, the only wider value. -/
def tableSelector (nbits : Nat) : Option Selector :=
  if nbits ≤ 8 then some .step
  else if nbits ≤ 24 then some .timer
  else none

/-- The operation the decoder reads from a bare table word. -/
def decodeTableWord (nbits w : Nat) : Option Instr :=
  match tableSelector nbits with
  | none => none
  | some sel =>
    if w < 2 ^ (8 * selectorBytes sel) then
      match decode sel (bytesOfWord (selectorBytes sel) w) with
      | .ok (i :: _) => some i
      | .ok [] => none
      | .error _ => none
    else none

end Sys2Proof
end

