-- ==== Sys2Proof/Config.lean ====
section
/-! DEFINITION. The configuration record `cfg` of spec/00_scope.md R9 and the values the spec leaves free. A run's
configuration is carried, unchanged, by `State.cfg` (log 2), so that every statement about all states is a statement
about all configurations. -/

namespace Sys2Proof

/-- The Code Store `CS[0 .. CS_LEN-1]` (spec/20_memory.md R50, R51) as a list of (offset, byte) cells in one canonical
form: offsets strictly rising and at most `last`, and no cell equal to what an unlisted offset reads as
(`Memory.unlisted`, log 5). `last` is `CS_LEN - 1`, the highest offset, so that `CS_LEN >= 1` (R9) holds of every store
that can be written (`Memory.len`, log 5); an offset above it does not exist. -/
structure Memory where
  cells : List Host.Cell
  last  : Nat
  deriving DecidableEq, Repr

/-- The configuration of one run (R9). `T_SHORT` is `unit + 1`, so that it lies in 1..32767 by its type and the
configurations that spec/93_implementation_defined.md U7 refuses cannot be written (log 1); `T_LONG = 2 * T_SHORT` is
computed (`Machine.tLong`) and not stored. `TMR_W` and `PHASE_W` are the widths of `Count` and `Phase`; the event
priority and the polarities, which R9 fixes, are in the operations. -/
structure Config where
  /-- `CS`, the contents of the Code Store. -/
  cs   : Memory
  /-- `T_SHORT - 1`. -/
  unit : Fin 32767
  /-- `F_CLK` in hertz (R9; spec/93_implementation_defined.md S2), a positive rational number (log 20). No operation
  reads it: it only turns cycles into real time (`Machine.intervalMs`). -/
  fClk : { f : Rat // 0 < f }
  deriving DecidableEq, Repr

/-- FREE VALUE (OPEN, R9, R10, D5; log 1): `T_SHORT - 1` of the configuration that `State.reset` carries. -/
opaque Config.freeUnit : Fin 32767

/-- FREE VALUE (OPEN, R9, D1; log 20): the `F_CLK` of the configuration that `State.reset` carries, as the pair `(n, d)`
of `(n + 1) / (d + 1)` hertz. -/
opaque Config.freeFClk : Nat × Nat

/-- FREE VALUE (R17, R142; log 3): the level of `rst` at the `n`-th clock edge after the listed inputs have run out. -/
opaque Config.freeRst : Nat → Bool

/-- FREE VALUE (R17, R142; log 3): the level of `btn_n` at the `n`-th clock edge after the listed inputs have run
out. -/
opaque Config.freeBtnN : Nat → Bool

/-- The reference Code Store, `{0xC9,0x17,0xC2,0x00}` (R50): four bytes, none of them different from what an unlisted
offset reads as. -/
def Memory.reference : Memory := { cells := [], last := 3 }

/-- The free `F_CLK` in hertz: any positive rational number may be it (log 20). -/
def Config.referenceFClk : { f : Rat // 0 < f } :=
  ⟨(Config.freeFClk.1 + 1) / (Config.freeFClk.2 + 1), by positivity⟩

/-- The configuration of `State.reset`: the reference default store (R9, R50; log 4), a free `T_SHORT` (log 1) and a free
`F_CLK` (log 20). -/
def Config.reference : Config := { cs := Memory.reference, unit := Config.freeUnit, fClk := Config.referenceFClk }

end Sys2Proof
end

