-- ==== Sys2Proof/Machine/State.lean ====
section
/-! DEFINITION. The block's state (spec/10_state.md R20), the inputs of the clock edges to come, and the reasons a step
can stop. -/

namespace Sys2Proof.Machine

/-- The Transmission State, a "tri-state value {Idle, Transmitting, Finishing}" (R24). The encoding `0b11` cannot be
written (U2, log 19). -/
inductive Mode where
  | idle | transmitting | finishing
  deriving DecidableEq, Repr

/-- The two input ports at one clock edge (R40): `rst` active high, `btn_n` active low. -/
structure Pins where
  rst  : Bool
  btnN : Bool
  deriving DecidableEq, Repr

/-- The nine registers of R20, 38 bits in all, in the order of the state tuples of spec/95_test_vectors.md. -/
structure Regs where
  /-- Transmission State (R24). -/
  mode    : Mode
  /-- Step index of the next phase step (R21). -/
  phase   : Phase
  /-- The megacode byte holding the bit being sent (R22). -/
  curByte : Byte
  /-- Status LED output latch (R25). -/
  led     : Bool
  /-- RF transmit output latch (R25). -/
  rf      : Bool
  /-- Global event enable (R26). -/
  gie     : Bool
  /-- Tick generator armed (R28). -/
  tmrRun  : Bool
  /-- Clock cycles left to expiry (R28). -/
  tmrCnt  : Count
  /-- Last sampled level of `btn_n` (R29). -/
  btnQ    : Bool
  deriving DecidableEq, Repr

/-- The registers, with what the closed machine needs besides (R31 keeps both apart from the registers): the run's
configuration, which no step changes (log 2), and the input levels to come (log 3). -/
structure State where
  /-- The block's nine registers. -/
  regs   : Regs
  /-- `cfg` (R9): the Code Store, `T_SHORT` and `F_CLK`, constant in a run (log 2). -/
  cfg    : Config
  /-- The input levels at the coming clock edges, first the next one; after the last, the levels are free (log 3). -/
  stim   : List Pins
  /-- THE MODEL'S OWN: how many free input levels have been used; indexes `Config.freeRst`, `Config.freeBtnN` (log 3). -/
  freeIx : Nat
  deriving DecidableEq, Repr

/-- The faults of the block. No step ever answers with one: the only fault is recorded and the block goes on, inert
(R180, log 10). -/
inductive Fault where
  /-- Raised by RESET when `CS[0][7] = 0` (R180), and recorded by `gie = 0` and `led = 1`: it is what `State.fault`
  reads. Safe: the machine goes on, as the spec says. -/
  | noValidCode
  deriving DecidableEq, Repr

/-- Why a step has no successor. -/
inductive Refusal where
  /-- Raised by exec's arm of an operation that has no meaning yet. Safe. -/
  | notModelled (mnemonic : String)
  /-- Raised by RSVD_STEP: `PhaseStep()` with `phase >= 98`, which the spec tells a model to refuse (R127, U1). Safe. -/
  | reservedStep (x : BitVec 5)
  /-- Raised by the fetch of PAUSE_A when the offset is not below `CS_LEN`: a malformed store,
  which the spec tells a model to refuse (R52, U3). Safe. -/
  | codeStoreRead (offset : Nat)
  deriving DecidableEq, Repr

/-- What one operation answers. -/
abbrev Result := Host.Outcome State Fault Refusal

/-- The state RESET leaves (R210, R211) with the reference store, which is valid (R50), a free `T_SHORT` and `F_CLK`
(logs 1, 20) and the button up (log 4). No input is listed: everything the environment does next is free (log 3). -/
def State.reset : State :=
  { regs :=
      { mode := .idle, phase := 0#7, curByte := 0#8, led := false, rf := false, gie := true, tmrRun := false,
        tmrCnt := 0#16, btnQ := true }
    cfg := Config.reference, stim := [], freeIx := 0 }

end Sys2Proof.Machine
end

