-- ==== Sys2Proof/Machine/Ops.lean ====
section
/-! DEFINITION. The named operations over the state: the inputs of a clock edge, register updates, the Code Store, the
timer's load, raising the one fault, and the output ports. -/

namespace Sys2Proof

/-! ### The Code Store (R50 to R59) -/

/-- What an offset that no cell lists reads as: the reference default's bytes (R50), and 0x00 from offset 4 on, where
the block never reads (R56; log 5). -/
def Memory.unlisted (o : Nat) : Byte :=
  match o with
  | 0 => 0xC9#8
  | 1 => 0x17#8
  | 2 => 0xC2#8
  | _ => 0x00#8

/-- The byte the cells hold at an offset. -/
def cellAt : List Host.Cell → Nat → Option Byte
  | [], _ => none
  | (a, b) :: cs, o => if a = o then some b else cellAt cs o

/-- `CS_LEN`, at least 1 (R9). -/
def Memory.len (m : Memory) : Nat := m.last + 1

/-- The byte at an offset; none at or above `CS_LEN`. -/
def Memory.read (m : Memory) (o : Nat) : Option Byte :=
  if o < m.len then some ((cellAt m.cells o).getD (Memory.unlisted o)) else none

/-- One cell put into a rising list, in the place of one with the same offset. -/
def putCell : List Host.Cell → Nat → Byte → List Host.Cell
  | [], o, b => [(o, b)]
  | (a, c) :: cs, o, b =>
    if o < a then (o, b) :: (a, c) :: cs
    else if o = a then (o, b) :: cs
    else (a, c) :: putCell cs o b

/-- The cell of one offset taken out. -/
def dropCell : List Host.Cell → Nat → List Host.Cell
  | [], _ => []
  | (a, c) :: cs, o => if a = o then cs else (a, c) :: dropCell cs o

/-- Provision one byte (R17: the host provisions `CS` before reset; the block itself has no memory write, R12). The
canonical form is kept; an offset at or above `CS_LEN` does not exist and changes nothing. -/
def Memory.provision (m : Memory) (o : Nat) (b : Byte) : Memory :=
  if o < m.len then
    { m with cells := if b = Memory.unlisted o then dropCell m.cells o else putCell m.cells o b }
  else m

/-- The cells of a sequence of bytes from an offset on. -/
def cellsFrom : Nat → List Byte → List Host.Cell
  | _, [] => []
  | o, b :: bs => if b = Memory.unlisted o then cellsFrom (o + 1) bs else (o, b) :: cellsFrom (o + 1) bs

/-- The Code Store holding the bytes `CS[0..CS_LEN-1]`: the first, and the rest (R9, R50: there is at least one). -/
def Memory.ofBytes (first : Byte) (rest : List Byte) : Memory :=
  { cells := cellsFrom 0 (first :: rest), last := rest.length }

/-- The cells' form from an offset on: offsets rising, below `len`, no byte an unlisted offset would read as. -/
def cellsWf (len : Nat) : Nat → List Host.Cell → Bool
  | _, [] => true
  | lo, (a, b) :: cs => decide (lo ≤ a) && decide (a < len) && b != Memory.unlisted a && cellsWf len (a + 1) cs

/-- The Code Store is in canonical form. -/
def Memory.wf (m : Memory) : Bool := cellsWf m.len 0 m.cells

/-- `Valid(CS)` is `CS[0][7] = 1` (R53). -/
def Memory.valid (m : Memory) : Bool :=
  match m.read 0 with
  | some b => b.getLsbD 7
  | none => false

/-- The layout of R51 with `n` megacodes: each has bit 7 of its first byte set, and the byte after the last is 0x00. -/
def Memory.holdsCodes (m : Memory) (n : Nat) : Bool :=
  decide (3 * n + 1 ≤ m.len) &&
    (List.range n).all (fun i => ((m.read (3 * i)).getD 0#8).getLsbD 7) && m.read (3 * n) == some 0#8

/-- A store is well formed when it holds some number of codes (R51). -/
def Memory.wellFormedStore (m : Memory) : Bool := (List.range (m.len + 1)).any m.holdsCodes

/-- Megacode 0 as a 24-bit value, `{CS[0], CS[1], CS[2]}` (R54, R56); none when the store is too short for it. -/
def Memory.megacode (m : Memory) : Option Megacode :=
  match m.read 0, m.read 1, m.read 2 with
  | some b0, some b1, some b2 => some (b0 ++ b1 ++ b2)
  | _, _, _ => none

end Sys2Proof

namespace Sys2Proof.Machine

/-! ### Sequencing -/

/-- Run `f` on the state `o` leaves; a stop stops. Writes of one cycle take effect in the order written (R12). -/
def andThen (o : Result) (f : State → Result) : Result :=
  match o with
  | .next s => f s
  | .fault e => .fault e
  | .refused r => .refused r

/-! ### Inputs (R40, R142; log 3) -/

/-- The levels of `rst` and `btn_n` at the coming clock edge. -/
def State.pins (s : State) : Pins :=
  match s.stim with
  | p :: _ => p
  | [] => { rst := Config.freeRst s.freeIx, btnN := Config.freeBtnN s.freeIx }

/-- The coming edge's input levels are used up. -/
def State.advanceInputs (s : State) : State :=
  match s.stim with
  | _ :: ps => { s with stim := ps }
  | [] => { s with freeIx := s.freeIx + 1 }

/-! ### Register updates -/

/-- `mode <- m`. -/
def State.setMode (s : State) (m : Mode) : State := { s with regs := { s.regs with mode := m } }

/-- `phase <- p`. -/
def State.setPhase (s : State) (p : Phase) : State := { s with regs := { s.regs with phase := p } }

/-- `cur_byte <- b`. -/
def State.setCurByte (s : State) (b : Byte) : State := { s with regs := { s.regs with curByte := b } }

/-- `led <- l; rf <- r`: the Output Driver's two latches (R25). -/
def State.setOut (s : State) (l r : Bool) : State := { s with regs := { s.regs with led := l, rf := r } }

/-- `gie <- g`. -/
def State.setGie (s : State) (g : Bool) : State := { s with regs := { s.regs with gie := g } }

/-- `tmr_cnt <- c; tmr_run <- run`, both at one clock edge (R150). -/
def State.setTimer (s : State) (run : Bool) (c : Count) : State :=
  { s with regs := { s.regs with tmrRun := run, tmrCnt := c } }

/-- `btn_q <- x`. -/
def State.setBtnQ (s : State) (x : Bool) : State := { s with regs := { s.regs with btnQ := x } }

/-- `phase <- phase + 1` (R78 item 1). -/
def State.nextPhase (s : State) : State := s.setPhase (s.regs.phase + 1#7)

/-! ### Reading the Code Store (R52) -/

/-- `CSRead(o)` (R52): the byte at an offset, refused beyond the store (U3). No register changes. -/
def State.csRead (s : State) (o : Nat) (k : Byte → Result) : Result :=
  match s.cfg.cs.read o with
  | some b => k b
  | none => .refused (.codeStoreRead o)

/-! ### The tick generator's load (R9, R150) -/

/-- The two interval lengths. -/
inductive Interval where
  | short | long
  deriving DecidableEq, Repr

/-- `T_SHORT` in clock cycles (R9). -/
def tShort (cfg : Config) : Nat := cfg.unit.val + 1

/-- `T_LONG = 2 * T_SHORT` (R9, R78 item 5). -/
def tLong (cfg : Config) : Nat := 2 * tShort cfg

/-- The number of clock cycles of an interval. -/
def intervalCycles (cfg : Config) : Interval → Nat
  | .short => tShort cfg
  | .long => tLong cfg

/-- The length of an interval in milliseconds of real time, at `F_CLK` hertz. The reference tuning makes a short interval
about 1.00 ms and a long one about 2.00 ms (R9, R230); no operation reads it (log 20). -/
def intervalMs (cfg : Config) (i : Interval) : Rat := 1000 * (intervalCycles cfg i : Rat) / cfg.fClk.val

/-- `Arm(SHORT)`, `Arm(LONG)`: `tmr_cnt <- n; tmr_run <- 1` (R12, R150). -/
def State.arm (s : State) (i : Interval) : State := s.setTimer true (BitVec.ofNat 16 (intervalCycles s.cfg i))

/-! ### The one fault (R180) -/

/-- `raise NoValidCode`, as RESET does it (R180, R210): the LED is lit and events are never enabled. Nothing is saved,
no handler is entered and the block goes on, inert; there is no return but another reset (R190, R191, R214). -/
def State.raiseNoValidCode (s : State) : State :=
  { s with regs := { s.regs with led := true, gie := false } }

/-- The fault indication, a function of `gie` (R31, R180). -/
def State.fault (s : State) : Option Fault := if s.regs.gie then none else some .noValidCode

/-! ### The output ports (R40, R41) -/

/-- `led_o = led`. -/
def State.ledO (s : State) : Bool := s.regs.led

/-- `rf_o = rf`. -/
def State.rfO (s : State) : Bool := s.regs.rf

/-- `active_o = (mode != Idle)` (R41, D28). -/
def State.activeO (s : State) : Bool := s.regs.mode != .idle

end Sys2Proof.Machine
end

