-- ==== Sys2Proof/Machine/Operands.lean ====
section
/-! DEFINITION. Operand assembly: the bit a step sends and the byte it fetches (spec/30_encoding.md R73, R76, R77;
spec/20_memory.md R55). -/

namespace Sys2Proof.Machine

/-- The value of the bit being sent, `v = cur_byte[7 - r]` (R76). -/
def bitValue (curByte : Byte) (r : BitVec 3) : Bool := curByte.getLsbD (7 - r.toNat)

/-- A byte is fetched at the start of each group of eight bits, `r = 0` (R77). -/
def fetches (r : BitVec 3) : Bool := r = 0#3

/-- The code bit number of a transmission index, `k = 23 - b` (R11, R55). -/
def codeBitNumber (b : Nat) : Nat := 23 - b

/-- The bit of the megacode sent at transmission index `b`, `M[23 - b]` (R55, R76). -/
def codeBit (m : Megacode) (b : Nat) : Bool := m.getLsbD (codeBitNumber b)

/-- The fetch of PAUSE_A: `cur_byte <- CSRead(o)` when `r = 0`, nothing otherwise (R77, R121, R128). -/
def State.fetchByte (s : State) (o : BitVec 2) (r : BitVec 3) (k : State → Result) : Result :=
  if fetches r then s.csRead o.toNat (fun b => k (s.setCurByte b)) else k s

end Sys2Proof.Machine
end

