-- ==== Sys2Proof/Machine/Encoder.lean ====
section
/-! DEFINITION. The phase steps of the pulse-position encoder (spec/41_phase_encoder.md). Every step writes the
outputs, arms the timer and advances `phase`, in this order (R120). -/

namespace Sys2Proof.Machine

/-- What the two pauses and the blank do after the fetch: LED on, RF off, `Arm(LONG)`, next step (R121, R123). -/
def State.pause (s : State) : State := ((s.setOut true false).arm .long).nextPhase

/-- What a pulse window does when it writes the outputs: pulse or no pulse, `Arm(SHORT)`, next step (R122, R124). -/
def State.window (s : State) (pulse : Bool) : State := ((s.setOut (!pulse) pulse).arm .short).nextPhase

/-- PAUSE_A: fetch a code byte when `r = 0`, then a pause (R121). -/
def execPauseA (o : BitVec 2) (r : BitVec 3) (s : State) : Result :=
  s.fetchByte o r (fun t => .next t.pause)

/-- WINDOW_A: pulse when the bit is 0 (R122). -/
def execWindowA (_o : BitVec 2) (r : BitVec 3) (s : State) : Result :=
  .next (s.window (!bitValue s.regs.curByte r))

/-- PAUSE_B: the second pause (R123). -/
def execPauseB (_o : BitVec 2) (_r : BitVec 3) (s : State) : Result := .next s.pause

/-- WINDOW_B: pulse when the bit is 1; when it is 0 the outputs are not written (R124). -/
def execWindowB (_o : BitVec 2) (r : BitVec 3) (s : State) : Result :=
  .next (if bitValue s.regs.curByte r then s.window true else (s.arm .short).nextPhase)

/-- BLANK: LED on, RF off, `Arm(LONG)`, `phase <- 97` (R125). -/
def execBlank (s : State) : Result := .next (((s.setOut true false).arm .long).setPhase 97#7)

/-- BOUNDARY: stop when Finishing, else arm the turnaround and start again (R126). -/
def execBoundary (s : State) : Result :=
  if s.regs.mode = .finishing then .next (((s.setOut false false).setMode .idle).setPhase 0#7)
  else .next ((s.arm .short).setPhase 0#7)

/-- RSVD_STEP: refused (R127, U1; log 11). -/
def execRsvdStep (x : BitVec 5) (_s : State) : Result := .refused (.reservedStep x)

/-- `PhaseStep()`: the step that `phase` selects (R120). -/
def phaseStep (s : State) : Result :=
  if s.regs.phase = 96#7 then execBlank s
  else if s.regs.phase = 97#7 then execBoundary s
  else if 98#7 ≤ s.regs.phase then execRsvdStep (s.regs.phase.extractLsb' 0 5) s
  else if phaseQ s.regs.phase = 0#2 then execPauseA (phaseO s.regs.phase) (phaseR s.regs.phase) s
  else if phaseQ s.regs.phase = 1#2 then execWindowA (phaseO s.regs.phase) (phaseR s.regs.phase) s
  else if phaseQ s.regs.phase = 2#2 then execPauseB (phaseO s.regs.phase) (phaseR s.regs.phase) s
  else execWindowB (phaseO s.regs.phase) (phaseR s.regs.phase) s

end Sys2Proof.Machine
end

