-- ==== Sys2Proof/Machine/Engine.lean ====
section
/-! DEFINITION. The Transmission Engine's event handlers (spec/40_engine_events.md). The scheduler runs one only when
`gie = 1` (R165). -/

namespace Sys2Proof.Machine

/-- PRESS: in Idle, start a transmission and execute step 0 at once; ignored otherwise (R100). -/
def execPress (_t : Bool) (s : State) : Result :=
  if s.regs.mode = .idle then phaseStep ((s.setMode .transmitting).setPhase 0#7) else .next s

/-- RELEASE: in Transmitting, finish the frame and stop; ignored otherwise (R101). -/
def execRelease (_t : Bool) (s : State) : Result :=
  .next (if s.regs.mode = .transmitting then s.setMode .finishing else s)

/-- TICK: the next phase step, unless Idle (R102). -/
def execTick (_q _n : Bool) (s : State) : Result := if s.regs.mode = .idle then .next s else phaseStep s

/-- NOEVENT: the engine's registers keep their values (R103). -/
def execNoevent (_q : Bool) (s : State) : Result := .next s

end Sys2Proof.Machine
end

