-- ==== Sys2Proof/Machine/Flags.lean ====
section
/-! DEFINITION. The one-bit conditions a clock cycle computes from the state at its start (spec/44_scheduler.md R165
step 1, spec/30_encoding.md R80), and the words the decoders of spec/30_encoding.md R87 read. -/

namespace Sys2Proof.Machine

/-- `tick = (tmr_run = 1 and tmr_cnt = 1)` (R80, R165). -/
def State.tickNow (s : State) : Bool := s.regs.tmrRun && s.regs.tmrCnt == 1#16

/-- A press is the change 1 to 0 of the button line (R80, R140). -/
def pressEdge (q n : Bool) : Bool := q && !n

/-- A release is the change 0 to 1 (R80, R140). -/
def releaseEdge (q n : Bool) : Bool := !q && n

/-- `ev = {tick, btn_q, btn_n}` (R80). -/
def State.eventVector (s : State) : BitVec 3 :=
  BitVec.ofBool s.tickNow ++ BitVec.ofBool s.regs.btnQ ++ BitVec.ofBool s.pins.btnN

/-- `{btn_q, btn_n}`, the word of format `button2` (R87). -/
def State.buttonWord (s : State) : BitVec 2 := BitVec.ofBool s.regs.btnQ ++ BitVec.ofBool s.pins.btnN

/-- `{tmr_run, tmr_cnt[15:0]}`, the word of format `timer17` (R87). -/
def State.timerWord (s : State) : BitVec 17 := BitVec.ofBool s.regs.tmrRun ++ s.regs.tmrCnt

/-- The 2-bit encoding of `mode` (R24). -/
def modeWord : Mode → BitVec 2
  | .idle => 0b00#2
  | .transmitting => 0b01#2
  | .finishing => 0b10#2

/-- The block waits: `mode = Idle` or `gie = 0` (R87, R200). -/
def State.waiting (s : State) : Bool := s.regs.mode == .idle || !s.regs.gie

end Sys2Proof.Machine
end

