-- ==== Sys2Proof/Machine/InputMonitor.lean ====
section
/-! DEFINITION. The Input Monitor (spec/42_input_monitor.md). -/

namespace Sys2Proof.Machine

/-- SAMPLE: `btn_q <- btn_n` (R140). The edge it detects is `pressEdge q n` or `releaseEdge q n`, which CYCLE hands to
the engine in the same cycle (R30, R165); no flag keeps it. -/
def execSample (_q n : Bool) (s : State) : Result := .next (s.setBtnQ n)

end Sys2Proof.Machine
end

