-- ==== Sys2Proof/Machine/System.lean ====
section
/-! DEFINITION. The system operations, RESET and WAIT (spec/70_reset_and_hazards.md R210, spec/60_exceptions.md R200,
R201). -/

namespace Sys2Proof.Machine

/-- The registers RESET leaves when the store is valid, the button at level `x` (R210): live, all outputs off. -/
def liveRegs (x : Bool) : Regs :=
  { mode := .idle, phase := 0#7, curByte := 0#8, led := false, rf := false, gie := true, tmrRun := false,
    tmrCnt := 0#16, btnQ := x }

/-- RESET: every register, with the startup validity check (R210). `btn_n` is the level at this clock edge. -/
def execReset (s : State) : Result :=
  s.csRead 0 (fun b =>
    .next (if b.getLsbD 7 then { s with regs := liveRegs s.pins.btnN }
      else State.raiseNoValidCode { s with regs := liveRegs s.pins.btnN }))

/-- WAIT: no architectural effect (R200; log 14). -/
def execWait (s : State) : Result := .next s

end Sys2Proof.Machine
end

