-- ==== Sys2Proof/Machine/TickGenerator.lean ====
section
/-! DEFINITION. The tick generator's operations (spec/43_tick_generator.md). -/

namespace Sys2Proof.Machine

/-- ARM_SHORT is `Arm(T_SHORT)` (R151). -/
def execArmShort (_p : BitVec 6) (s : State) : Result := .next (s.arm .short)

/-- ARM_LONG is `Arm(T_LONG)` (R152). -/
def execArmLong (_p : BitVec 6) (s : State) : Result := .next (s.arm .long)

/-- COUNT: `tmr_cnt <- tmr_cnt - 1` (R153). The operand is that same register's content (log 9). -/
def execCount (_c : Count) (s : State) : Result := .next (s.setTimer s.regs.tmrRun (s.regs.tmrCnt - 1#16))

/-- EXPIRE: `tmr_cnt <- 0; tmr_run <- 0`, once, stopped (R154). The Tick it delivers is `State.tickNow`. -/
def execExpire (s : State) : Result := .next (s.setTimer false 0#16)

/-- HOLD: nothing changes; a timer running at 0, which no run reaches, is stopped (R155, U4; log 8). -/
def execHold (_c : Count) (s : State) : Result :=
  .next (if s.regs.tmrRun && s.regs.tmrCnt == 0#16 then s.setTimer false s.regs.tmrCnt else s)

/-- The tick generator's part of a clock cycle (R165 step 2): EXPIRE, COUNT or HOLD. -/
def timerStep (s : State) : Result :=
  if s.regs.tmrRun then
    if s.regs.tmrCnt = 1#16 then execExpire s
    else if s.regs.tmrCnt = 0#16 then execHold 0#16 s
    else execCount s.regs.tmrCnt s
  else execHold s.regs.tmrCnt s

end Sys2Proof.Machine
end

