-- ==== Sys2Proof/Machine/Scheduler.lean ====
section
/-! DEFINITION. The scheduler: one clock cycle with `rst = 0` (spec/44_scheduler.md). -/

namespace Sys2Proof.Machine

/-- Step 3 of the cycle: the handlers of the events detected at its start, Tick first (R165, R167), each on the state
the previous one left; NOEVENT when there is none or `gie = 0` (R103, R166). -/
def handleEvents (tick q n : Bool) (s : State) : Result :=
  if s.regs.gie && (tick || pressEdge q n || releaseEdge q n) then
    andThen (if tick then execTick q n s else .next s) (fun s1 =>
      andThen (if pressEdge q n then execPress tick s1 else .next s1) (fun s2 =>
        if releaseEdge q n then execRelease tick s2 else .next s2))
  else execNoevent q s

/-- After the handlers of a cycle the block is either active or waiting (R191, R200). -/
def waitIfIdle (s : State) : Result := if s.waiting then execWait s else .next s

/-- CYCLE (R165): detect on the state at the start of the cycle; advance the input monitor and the tick generator; run
the handlers. Step 3 comes after step 2, so an `Arm` inside a handler replaces what EXPIRE wrote. -/
def execCycle (s : State) : Result :=
  andThen (execSample s.regs.btnQ s.pins.btnN s) (fun s1 =>
    andThen (timerStep s1) (fun s2 =>
      andThen (handleEvents s.tickNow s.regs.btnQ s.pins.btnN s2) waitIfIdle))

/-- The operations one cycle is made of, in order, as the decoders name them from the state at its start; each Tick or
Press runs its phase step inside itself (R81, R120, R165). -/
def State.cycleOperations (s : State) : List Instr :=
  decodeButton s.buttonWord :: decodeTimer s.timerWord :: decodeEvent s.regs.gie s.eventVector

end Sys2Proof.Machine
end

