-- ==== Sys2Proof/Machine/Dispatch.lean ====
section
/-! DEFINITION. One arm per operation of spec/opcode_table.json. -/

namespace Sys2Proof.Machine

/-- The meaning of every operation. -/
def exec (i : Instr) (s : State) : Host.Outcome State Fault Refusal :=
  match i with
  | .pauseA o r => Sys2Proof.Machine.execPauseA o r s
  | .windowA o r => Sys2Proof.Machine.execWindowA o r s
  | .pauseB o r => Sys2Proof.Machine.execPauseB o r s
  | .windowB o r => Sys2Proof.Machine.execWindowB o r s
  | .blank => Sys2Proof.Machine.execBlank s
  | .boundary => Sys2Proof.Machine.execBoundary s
  | .rsvdStep x => Sys2Proof.Machine.execRsvdStep x s
  | .press t => Sys2Proof.Machine.execPress t s
  | .release t => Sys2Proof.Machine.execRelease t s
  | .tick q n => Sys2Proof.Machine.execTick q n s
  | .noevent q => Sys2Proof.Machine.execNoevent q s
  | .sample q n => Sys2Proof.Machine.execSample q n s
  | .armShort p => Sys2Proof.Machine.execArmShort p s
  | .armLong p => Sys2Proof.Machine.execArmLong p s
  | .count c => Sys2Proof.Machine.execCount c s
  | .expire => Sys2Proof.Machine.execExpire s
  | .hold c => Sys2Proof.Machine.execHold c s
  | .cycle => Sys2Proof.Machine.execCycle s
  | .reset => Sys2Proof.Machine.execReset s
  | .wait => Sys2Proof.Machine.execWait s

end Sys2Proof.Machine
end

