-- ==== Sys2Proof/Machine/Step.lean ====
section
/-! DEFINITION. One clock edge (spec/00_scope.md R13): RESET or CYCLE as `rst` selects, after which the edge's input
levels are used up. -/

namespace Sys2Proof.Machine

/-- One rising edge of `clk` (R165, R210). -/
def step (s : State) : Host.Outcome State Fault Refusal :=
  andThen (exec (decodeReset s.pins.rst) s) (fun t => .next t.advanceInputs)

/-- Set up so that the very next edge is a CYCLE that handles a Tick and no button edge, whose phase step is the one
`p` selects (log 7). -/
def State.withPhase (s : State) (p : Phase) : State :=
  { s with
    regs := { s.regs with
      mode := if s.regs.mode = .idle then .transmitting else s.regs.mode
      phase := p, gie := true, tmrRun := true, tmrCnt := 1#16 }
    stim := { rst := false, btnN := s.regs.btnQ } :: s.stim.tail }

/-- Set up so that the very next edge is a CYCLE that finds the timer pair `w` and no button edge (log 7). -/
def State.withTimer (s : State) (w : BitVec 17) : State :=
  { s with
    regs := { s.regs with tmrRun := w.getLsbD 16, tmrCnt := w.extractLsb' 0 16 }
    stim := { rst := false, btnN := s.regs.btnQ } :: s.stim.tail }

/-- `s` with the table word placed where the next step decodes it: the step index, or the timer pair (log 6, log 7). A
word the decoder rejects places nothing. -/
def State.withFetchWord (s : State) (nbits w : Nat) : State :=
  match decodeTableWord nbits w, tableSelector nbits with
  | some _, some .timer => s.withTimer (BitVec.ofNat 17 w)
  | some _, some _ => s.withPhase (BitVec.ofNat 7 w)
  | _, _ => s

end Sys2Proof.Machine
end

