-- ==== Sys2Proof/Machine/EventLevel.lean ====
section
/-! DEFINITION. The event-level model, "a pure state-transition function over (state, event) → (state, side-effect
list)" (spec/00_scope.md R15, spec/40_engine_events.md R107), and the Code Store port that its effects drive (R40). It
is written on natural numbers from the frame format (spec/30_encoding.md R70, R75, R76), apart from the phase steps of
the cycle-level model, so that their agreement says something (log 18). -/

namespace Sys2Proof.Machine

/-- The engine's own registers (R107). -/
structure EngineState where
  mode    : Mode
  phase   : Phase
  curByte : Byte
  led     : Bool
  rf      : Bool
  deriving DecidableEq, Repr

/-- "events {ButtonPress, ButtonRelease, TimerTick}" (R7, R81). -/
inductive Event where
  | press | release | tick
  deriving DecidableEq, Repr

/-- The effects of a handler, in order of occurrence (R107). -/
inductive Effect where
  /-- `Read(o)`: a Code Store read. -/
  | read (o : Nat)
  /-- `Out(led, rf)`: an output write. -/
  | out (led rf : Bool)
  /-- `Arm(SHORT)` or `Arm(LONG)`. -/
  | arm (i : Interval)
  deriving DecidableEq, Repr

/-- What an event-level step answers: a refusal, or the state and the effects. -/
abbrev EngineResult := Except Refusal (EngineState × List Effect)

/-- The interval a step arms: odd indexes short, even ones long (R75). -/
def stepInterval (p : Nat) : Interval := if p % 2 = 1 then .short else .long

/-- The bit sent at transmission index `b` out of the byte in hand, at position `(23 - b) mod 8` (R55, R76). -/
def slotBit (curByte : Byte) (b : Nat) : Bool := curByte.getLsbD ((23 - b) % 8)

/-- The step `p <= 95` of transmission index `b = p div 4`, quarter `p mod 4` (R70, R71, R77). -/
def engineBitStep (cs : Memory) (e : EngineState) (p : Nat) : EngineResult :=
  let b := p / 4
  let e' : EngineState := { e with phase := BitVec.ofNat 7 (p + 1) }
  let v := slotBit e.curByte b
  if p % 4 = 0 then
    if b % 8 = 0 then
      match cs.read (b / 8) with
      | some byte =>
        .ok ({ e' with curByte := byte, led := true, rf := false },
          [.read (b / 8), .out true false, .arm (stepInterval p)])
      | none => .error (.codeStoreRead (b / 8))
    else .ok ({ e' with led := true, rf := false }, [.out true false, .arm (stepInterval p)])
  else if p % 4 = 2 then .ok ({ e' with led := true, rf := false }, [.out true false, .arm (stepInterval p)])
  else if p % 4 = 1 then .ok ({ e' with led := v, rf := !v }, [.out v (!v), .arm (stepInterval p)])
  else if v then .ok ({ e' with led := false, rf := true }, [.out false true, .arm (stepInterval p)])
  else .ok (e', [.arm (stepInterval p)])

/-- The step of index `p` (R70, R72): a bit's quarter, the blank, the boundary, or none. -/
def engineStep (cs : Memory) (e : EngineState) (p : Nat) : EngineResult :=
  if p ≤ 95 then engineBitStep cs e p
  else if p = 96 then
    .ok ({ e with phase := 97#7, led := true, rf := false }, [.out true false, .arm (stepInterval p)])
  else if p = 97 then
    if e.mode = .finishing then
      .ok ({ e with mode := .idle, phase := 0#7, led := false, rf := false }, [.out false false])
    else .ok ({ e with phase := 0#7 }, [.arm (stepInterval p)])
  else .error (.reservedStep (BitVec.ofNat 5 p))

/-- `Engine(s, e)` (R107): the transitions of R104. -/
def engine (cs : Memory) (e : EngineState) : Event → EngineResult
  | .press =>
    if e.mode = .idle then engineStep cs { e with mode := .transmitting, phase := 0#7 } 0 else .ok (e, [])
  | .release => .ok (if e.mode = .transmitting then { e with mode := .finishing } else e, [])
  | .tick => if e.mode = .idle then .ok (e, []) else engineStep cs e e.phase.toNat

/-- Several events one after the other, with all their effects. -/
def engineRun (cs : Memory) (e : EngineState) : List Event → EngineResult
  | [] => .ok (e, [])
  | ev :: evs =>
    match engine cs e ev with
    | .error r => .error r
    | .ok (e1, fx) =>
      match engineRun cs e1 evs with
      | .error r => .error r
      | .ok (e2, fx2) => .ok (e2, fx ++ fx2)

/-! ### The event-level model on the block's state -/

/-- The engine's registers out of the nine. -/
def State.engineState (s : State) : EngineState :=
  { mode := s.regs.mode, phase := s.regs.phase, curByte := s.regs.curByte, led := s.regs.led, rf := s.regs.rf }

/-- The engine's registers put back. -/
def State.withEngine (s : State) (e : EngineState) : State :=
  { s with regs := { s.regs with mode := e.mode, phase := e.phase, curByte := e.curByte, led := e.led, rf := e.rf } }

/-- What an effect does outside the engine: `Arm` loads the timer, `Out` drives the latches, `Read` changes nothing. -/
def applyEffect (s : State) : Effect → State
  | .read _ => s
  | .out l r => s.setOut l r
  | .arm i => s.arm i

/-- The events of the coming cycle in handling order (R80, R81); none with `gie = 0` (R166). -/
def State.cycleEvents (s : State) : List Event :=
  if s.regs.gie then
    (if s.tickNow then [.tick] else []) ++
      (if pressEdge s.regs.btnQ s.pins.btnN then [.press]
        else if releaseEdge s.regs.btnQ s.pins.btnN then [.release] else [])
  else []

/-- The Code Store offsets read at the coming clock edge, in order: offset 0 by RESET, else the `Read` effects of the
cycle's events (R52, R57). THE MODEL'S CHOICE (DESIGN CHOICE, log 17): a cycle that is refused, for a fetch beyond the
store or for a reserved step, reads nothing; the spec gives a refused case no behaviour. A RESET is never refused, since
every store has a byte at offset 0 (R9). -/
def State.codeStoreReads (s : State) : List Nat :=
  if s.pins.rst then [0]
  else
    match engineRun s.cfg.cs s.engineState s.cycleEvents with
    | .error _ => []
    | .ok (_, fx) => fx.filterMap (fun e => match e with | .read o => some o | .out _ _ => none | .arm _ => none)

/-- The port `cs_addr` at the coming clock edge (R40): the offset read there; none in a cycle that reads nothing or
is refused, where the spec gives the port no value (DESIGN CHOICE, log 17). -/
def State.csAddr (s : State) : Option (BitVec 2) := s.codeStoreReads.head?.map (BitVec.ofNat 2)

end Sys2Proof.Machine
end

