-- ==== Sys2Proof/Safety.lean ====
section
/-! DEFINITION. The terms in which claims about runs are made: the conditions of a state, the nine invariants of
spec/10_state.md R33, and the closed form of the outputs (spec/41_phase_encoder.md R129). -/

namespace Sys2Proof

open Machine

/-- `Inert(s) = (s.gie = 0)` (R180). -/
def Inert (s : State) : Prop := s.regs.gie = false

/-- Quiescent: inert, or Idle with the timer stopped (R18). -/
def Quiescent (s : State) : Prop := s.regs.gie = false ∨ (s.regs.mode = .idle ∧ s.regs.tmrRun = false)

/-- The store can be sent: it holds the three bytes of megacode 0 (R213 item 1: `CS_LEN >= 3`). -/
def Sendable (m : Memory) : Prop := 3 ≤ m.len

/-- At most one of the outputs is asserted (R33 item 1). -/
def OutputsExclusive (r : Regs) : Prop := ¬ (r.led = true ∧ r.rf = true)

/-- R33, items 1 to 9 in order, as one condition on the registers under a configuration. Item 8 (`mode` is never
`0b11`) is the type of `mode`. -/
structure RegsInv (cfg : Config) (r : Regs) : Prop where
  /-- Item 1. -/
  exclusive : OutputsExclusive r
  /-- Item 2. -/
  inert : r.gie = false → r.mode = .idle ∧ r.led = true ∧ r.rf = false ∧ r.tmrRun = false ∧ r.phase = 0#7
  /-- Item 3. -/
  idle : r.gie = true → r.mode = .idle →
    r.led = false ∧ r.rf = false ∧ r.tmrRun = false ∧ r.tmrCnt = 0#16 ∧ r.phase = 0#7
  /-- Item 4. -/
  armed : r.mode ≠ .idle → r.tmrRun = true ∧ 1 ≤ r.tmrCnt.toNat ∧ r.tmrCnt.toNat ≤ tLong cfg
  /-- Item 5, the range. -/
  phaseRange : r.phase.toNat ≤ 97
  /-- Item 5, the turnaround: 1 time unit at `(1, 0)` (R72). -/
  turnaround : r.mode ≠ .idle → r.phase = 0#7 → r.led = true ∧ r.rf = false ∧ r.tmrCnt.toNat ≤ tShort cfg
  /-- Item 6. -/
  pulse : r.rf = true → r.mode ≠ .idle ∧ r.phase.toNat % 2 = 0 ∧ 2 ≤ r.phase.toNat ∧ r.phase.toNat ≤ 96 ∧
    r.tmrCnt.toNat ≤ tShort cfg
  /-- Item 7. -/
  stopped : r.tmrRun = false → r.tmrCnt = 0#16
  /-- Item 9. -/
  held : r.mode = .transmitting → r.btnQ = false
  /-- "The status LED is on whenever the RF line is off during a frame" (R71). -/
  ledInFrame : r.mode ≠ .idle → r.led = !r.rf

/-- The registers meet R33 under the state's own configuration. -/
def Inv (s : State) : Prop := RegsInv s.cfg s.regs

/-- `gie` records the validity of the store (R26, R53). -/
def GieRecordsValidity (s : State) : Prop := s.regs.gie = s.cfg.cs.valid

/-- The index of the byte in hand while `phase` holds `p`: byte 0 from step 0 on, byte 1 from step 32 on, byte 2 from
step 64 on, and still byte 2 during the turnaround, where `p = 0` (R22, R77). -/
def byteInHand (p : Phase) : Nat := if p = 0#7 then 2 else if p.toNat ≤ 32 then 0 else if p.toNat ≤ 64 then 1 else 2

/-- `cur_byte` holds the byte of the bit being sent (R22). -/
def HoldsByte (s : State) : Prop :=
  s.regs.mode ≠ .idle → s.cfg.cs.read (byteInHand s.regs.phase) = some s.regs.curByte

/-! ### Which operation writes which register (R20) -/

/-- The nine registers by name (R20). -/
inductive Register where
  | mode | phase | curByte | led | rf | gie | tmrRun | tmrCnt | btnQ
  deriving DecidableEq, Repr

/-- Two register files agree on one register. -/
def Agree (r r' : Regs) : Register → Prop
  | .mode => r.mode = r'.mode
  | .phase => r.phase = r'.phase
  | .curByte => r.curByte = r'.curByte
  | .led => r.led = r'.led
  | .rf => r.rf = r'.rf
  | .gie => r.gie = r'.gie
  | .tmrRun => r.tmrRun = r'.tmrRun
  | .tmrCnt => r.tmrCnt = r'.tmrCnt
  | .btnQ => r.btnQ = r'.btnQ

/-- The registers an operation may write: the column "written by" of R20 read by operation. PRESS and TICK write what
the phase step inside them writes, a phase step what the `Arm` inside it writes, and CYCLE everything but `gie`. HOLD
may stop a timer that runs at 0 (R155; no run reaches it). -/
def writes : Instr → List Register
  | .pauseA _ _ => [.phase, .curByte, .led, .rf, .tmrRun, .tmrCnt]
  | .windowA _ _ => [.phase, .led, .rf, .tmrRun, .tmrCnt]
  | .pauseB _ _ => [.phase, .led, .rf, .tmrRun, .tmrCnt]
  | .windowB _ _ => [.phase, .led, .rf, .tmrRun, .tmrCnt]
  | .blank => [.phase, .led, .rf, .tmrRun, .tmrCnt]
  | .boundary => [.mode, .phase, .led, .rf, .tmrRun, .tmrCnt]
  | .rsvdStep _ => []
  | .press _ => [.mode, .phase, .curByte, .led, .rf, .tmrRun, .tmrCnt]
  | .release _ => [.mode]
  | .tick _ _ => [.mode, .phase, .curByte, .led, .rf, .tmrRun, .tmrCnt]
  | .noevent _ => []
  | .sample _ _ => [.btnQ]
  | .armShort _ => [.tmrRun, .tmrCnt]
  | .armLong _ => [.tmrRun, .tmrCnt]
  | .count _ => [.tmrCnt]
  | .expire => [.tmrRun, .tmrCnt]
  | .hold _ => [.tmrRun]
  | .cycle => [.mode, .phase, .curByte, .led, .rf, .tmrRun, .tmrCnt, .btnQ]
  | .reset => [.mode, .phase, .curByte, .led, .rf, .gie, .tmrRun, .tmrCnt, .btnQ]
  | .wait => []

/-! ### Runs -/

/-- `n` clock edges, in the machine's own types. -/
def runSteps (n : Nat) (s : State) : Result := Host.Core.run core n s

/-- Operations one after the other, stopping at the first that stops. -/
def runOperations : List Instr → State → Result
  | [], s => .next s
  | i :: is, s => andThen (exec i s) (runOperations is)

/-- An event-level answer read on the block's state: a refusal as it is, the engine's registers put back and each effect
applied in order (R107). -/
def reflect (s : State) : EngineResult → Result
  | .error r => .refused r
  | .ok (e, fx) => .next (fx.foldl applyEffect (s.withEngine e))

/-- The handler operation of an event (R81). -/
def handlerOf : Event → Instr
  | .press => .press false
  | .release => .release false
  | .tick => .tick false false

/-- No reset falls in the first `n` clock edges, whose inputs are all listed. -/
def NoReset (s : State) (n : Nat) : Prop := n ≤ s.stim.length ∧ ∀ p ∈ s.stim.take n, p.rst = false

/-- The listed level of `btn_n` at clock edge `k` (edge 0 is the coming one); up where none is listed. -/
def listedButton (s : State) (k : Nat) : Bool := (s.stim[k]?.map Pins.btnN).getD true

/-- Live and Idle with the timer stopped and the button up, the coming edge a Press without reset: a transmission is
about to begin (R18, R100). -/
def PressComing (s : State) : Prop :=
  s.regs.gie = true ∧ s.regs.mode = .idle ∧ s.regs.tmrRun = false ∧ s.regs.btnQ = true ∧ s.pins.rst = false ∧
    s.pins.btnN = false

/-- Step 0 of a frame, the first of a transmission or a later one, has just run: the step index is 1, the long interval
is freshly loaded and byte 0 is in hand (R121). The outputs are `(1, 0)` and the timer runs, by the invariants. -/
def FrameStarted (s : State) : Prop :=
  Inv s ∧ s.regs.mode ≠ .idle ∧ s.regs.phase = 1#7 ∧ s.regs.tmrCnt.toNat = tLong s.cfg ∧
    s.cfg.cs.read 0 = some s.regs.curByte

/-- From step 0 of a frame to its boundary, in clock cycles: 146 time units (R79). -/
def frameCycles (cfg : Config) : Nat := 146 * tShort cfg

/-- From step 0 of a frame to step 0 of the next, in clock cycles: 147 time units (R79; the turnaround is log 13). -/
def periodCycles (cfg : Config) : Nat := 147 * tShort cfg

/-- The listed levels make edge `k`, not the first, a Press (R140). -/
def PressAt (s : State) (k : Nat) : Prop := listedButton s (k - 1) = true ∧ listedButton s k = false

/-- Idle again, with the outputs off, the timer stopped and the step index 0 (R126's stop). -/
def Stopped (s : State) : Prop :=
  s.regs.mode = .idle ∧ s.ledO = false ∧ s.rfO = false ∧ s.regs.tmrRun = false ∧ s.regs.phase = 0#7

/-! ### The outputs as a function of time (R79, R129) -/

/-- `t(p)`, the start of step `p` in time units after the start of step 0 (R79): `t(4b + q) = 6b + (0, 2, 3, 5)[q]`. -/
def stepStart (p : Nat) : Nat :=
  6 * (p / 4) + (if p % 4 = 0 then 0 else if p % 4 = 1 then 2 else if p % 4 = 2 then 3 else 5)

/-- Whether RF is asserted in time unit `u` of a frame that sends `m` (R129). -/
def rfAt (m : Megacode) (u : Nat) : Bool :=
  decide (u < 144) && ((u % 6 == 2 && !codeBit m (u / 6)) || (u % 6 == 5 && codeBit m (u / 6)))

end Sys2Proof
end

