-- ==== Sys2Proof/Certificates/Slice0/Obligations.lean ====
section
/-! DEFINITION. The statements for the provers, in the order of the operation table's families, then those about the
whole machine. Every docstring names the rule of spec/ it formalises. -/

open Sys2Proof Sys2Proof.Machine

/-! ### Phase steps (spec/41_phase_encoder.md) -/

/-- R121 PAUSE_A: what selects it; with `r` not 0 it writes the outputs, arms long and advances; with `r = 0` it
also fetches; the fetch beyond the store is refused (R52). The equations say the frame too: every other register,
the Code Store, the inputs. -/
def Obligations.PauseAFetchesAndPauses : Prop :=
  ∀ (o : BitVec 2) (r : BitVec 3) (s : State),
    (s.regs.phase.toNat ≤ 95 → s.regs.phase.extractLsb' 0 2 = 0#2 → decodePhase s.regs.phase =
      .pauseA (s.regs.phase.extractLsb' 5 2) (s.regs.phase.extractLsb' 2 3)) ∧
    (r ≠ 0#3 → exec (.pauseA o r) s = .next { s with regs := { s.regs with
      led := true, rf := false, tmrRun := true, tmrCnt := BitVec.ofNat 16 (2 * (s.cfg.unit.val + 1)),
      phase := s.regs.phase + 1#7 } }) ∧
    (∀ b, r = 0#3 → s.cfg.cs.read o.toNat = some b → exec (.pauseA o r) s = .next { s with regs := { s.regs with
      curByte := b, led := true, rf := false, tmrRun := true, tmrCnt := BitVec.ofNat 16 (2 * (s.cfg.unit.val + 1)),
      phase := s.regs.phase + 1#7 } }) ∧
    (r = 0#3 → s.cfg.cs.read o.toNat = none → exec (.pauseA o r) s = .refused (.codeStoreRead o.toNat))

/-- R122 WINDOW_A: what selects it; a 0 bit pulses, a 1 bit does not; both arm short and advance; nothing else
changes. -/
def Obligations.WindowAPulsesZeroBits : Prop :=
  ∀ (o : BitVec 2) (r : BitVec 3) (s : State),
    (s.regs.phase.toNat ≤ 95 → s.regs.phase.extractLsb' 0 2 = 1#2 → decodePhase s.regs.phase =
      .windowA (s.regs.phase.extractLsb' 5 2) (s.regs.phase.extractLsb' 2 3)) ∧
    (s.regs.curByte.getLsbD (7 - r.toNat) = false → exec (.windowA o r) s = .next { s with regs := { s.regs with
      rf := true, led := false, tmrRun := true, tmrCnt := BitVec.ofNat 16 (s.cfg.unit.val + 1),
      phase := s.regs.phase + 1#7 } }) ∧
    (s.regs.curByte.getLsbD (7 - r.toNat) = true → exec (.windowA o r) s = .next { s with regs := { s.regs with
      rf := false, led := true, tmrRun := true, tmrCnt := BitVec.ofNat 16 (s.cfg.unit.val + 1),
      phase := s.regs.phase + 1#7 } })

/-- R123 PAUSE_B: what selects it; LED on, RF off, arms long and advances; nothing else changes. -/
def Obligations.PauseBEndsThePulse : Prop :=
  ∀ (o : BitVec 2) (r : BitVec 3) (s : State),
    (s.regs.phase.toNat ≤ 95 → s.regs.phase.extractLsb' 0 2 = 2#2 → decodePhase s.regs.phase =
      .pauseB (s.regs.phase.extractLsb' 5 2) (s.regs.phase.extractLsb' 2 3)) ∧
    exec (.pauseB o r) s = .next { s with regs := { s.regs with
      led := true, rf := false, tmrRun := true, tmrCnt := BitVec.ofNat 16 (2 * (s.cfg.unit.val + 1)),
      phase := s.regs.phase + 1#7 } }

/-- R124 WINDOW_B: what selects it; a 1 bit pulses; for a 0 bit the outputs are not written; both arm short and
advance. -/
def Obligations.WindowBPulsesOneBits : Prop :=
  ∀ (o : BitVec 2) (r : BitVec 3) (s : State),
    (s.regs.phase.toNat ≤ 95 → s.regs.phase.extractLsb' 0 2 = 3#2 → decodePhase s.regs.phase =
      .windowB (s.regs.phase.extractLsb' 5 2) (s.regs.phase.extractLsb' 2 3)) ∧
    (s.regs.curByte.getLsbD (7 - r.toNat) = true → exec (.windowB o r) s = .next { s with regs := { s.regs with
      rf := true, led := false, tmrRun := true, tmrCnt := BitVec.ofNat 16 (s.cfg.unit.val + 1),
      phase := s.regs.phase + 1#7 } }) ∧
    (s.regs.curByte.getLsbD (7 - r.toNat) = false → exec (.windowB o r) s = .next { s with regs := { s.regs with
      tmrRun := true, tmrCnt := BitVec.ofNat 16 (s.cfg.unit.val + 1), phase := s.regs.phase + 1#7 } })

/-- R125 BLANK, selected by 96: LED on, RF off, arms long, `phase <- 97`; nothing else changes. -/
def Obligations.BlankIsASyncGap : Prop :=
  decodePhase 96#7 = .blank ∧ ∀ s : State, exec .blank s = .next { s with regs := { s.regs with
    led := true, rf := false, tmrRun := true, tmrCnt := BitVec.ofNat 16 (2 * (s.cfg.unit.val + 1)), phase := 97#7 } }

/-- R126 BOUNDARY, selected by 97: Finishing stops with the timer not armed; else the turnaround is armed and the
outputs are kept. -/
def Obligations.BoundaryStopsOrRepeats : Prop :=
  decodePhase 97#7 = .boundary ∧ ∀ s : State,
    (s.regs.mode = .finishing → exec .boundary s = .next { s with regs := { s.regs with
      led := false, rf := false, mode := .idle, phase := 0#7 } }) ∧
    (s.regs.mode ≠ .finishing → exec .boundary s = .next { s with regs := { s.regs with
      tmrRun := true, tmrCnt := BitVec.ofNat 16 (s.cfg.unit.val + 1), phase := 0#7 } })

/-- R127 RSVD_STEP, selected by 98 to 127, has no successor: "The model must `refuse`". -/
def Obligations.ReservedStepIsRefused : Prop :=
  (∀ p : Phase, 98#7 ≤ p → decodePhase p = .rsvdStep (p.extractLsb' 0 5)) ∧
  ∀ (x : BitVec 5) (s : State), exec (.rsvdStep x) s = .refused (.reservedStep x)

/-! ### Engine events (spec/40_engine_events.md) -/

/-- R100 PRESS, selected by `ev[1:0] = 0b10` with `gie = 1`: in Idle, a transmission starts and step 0 runs at once,
fetching the byte at offset 0, which every store has (R9); in the other modes nothing changes. -/
def Obligations.PressStartsOnlyFromIdle : Prop :=
  (∀ ev : BitVec 3, ev.extractLsb' 0 2 = 0b10#2 → .press (ev.getLsbD 2) ∈ decodeEvent true ev) ∧
  ∀ (t : Bool) (s : State),
    (s.regs.mode = .idle → ∃ b, s.cfg.cs.read 0 = some b ∧
      exec (.press t) s = .next { s with regs := { s.regs with
        mode := .transmitting, phase := 1#7, curByte := b, led := true, rf := false, tmrRun := true,
        tmrCnt := BitVec.ofNat 16 (2 * (s.cfg.unit.val + 1)) } }) ∧
    (s.regs.mode ≠ .idle → exec (.press t) s = .next s)

/-- R101 RELEASE, selected by `ev[1:0] = 0b01` with `gie = 1`: Transmitting becomes Finishing and nothing else
changes; in the other modes nothing changes. -/
def Obligations.ReleaseOnlyAsksToFinish : Prop :=
  (∀ ev : BitVec 3, ev.extractLsb' 0 2 = 0b01#2 → .release (ev.getLsbD 2) ∈ decodeEvent true ev) ∧
  ∀ (t : Bool) (s : State),
    (s.regs.mode = .transmitting → exec (.release t) s = .next { s with regs := { s.regs with mode := .finishing } }) ∧
    (s.regs.mode ≠ .transmitting → exec (.release t) s = .next s)

/-- R102 TICK, selected by `ev[2] = 1` with `gie = 1`: it runs exactly the step that `phase` decodes to (R120); in
Idle nothing changes. -/
def Obligations.TickRunsTheDecodedStep : Prop :=
  (∀ ev : BitVec 3, ev.getLsbD 2 = true → .tick (ev.getLsbD 1) (ev.getLsbD 0) ∈ decodeEvent true ev) ∧
  ∀ (q n : Bool) (s : State),
    (s.regs.mode ≠ .idle → exec (.tick q n) s = exec (decodePhase s.regs.phase) s) ∧
    (s.regs.mode = .idle → exec (.tick q n) s = .next s)

/-- R102, R120, R126: on every step index of a frame and a sendable store TICK completes: the index advances by 1 or
returns to 0, and `gie`, `btn_q`, the configuration and the inputs stay. -/
def Obligations.TickCompletesInsideAFrame : Prop :=
  ∀ (q n : Bool) (s : State), s.regs.mode ≠ .idle → s.regs.phase.toNat ≤ 97 → Sendable s.cfg.cs →
    ∃ t, exec (.tick q n) s = .next t ∧
      t.regs.phase = (if s.regs.phase = 97#7 then 0#7 else s.regs.phase + 1#7) ∧
      t.regs.gie = s.regs.gie ∧ t.regs.btnQ = s.regs.btnQ ∧ t.cfg = s.cfg ∧ t.stim = s.stim ∧ t.freeIx = s.freeIx

/-- R103 NOEVENT and R200 WAIT change nothing. -/
def Obligations.NoeventAndWaitChangeNothing : Prop :=
  ∀ (q : Bool) (s : State), exec (.noevent q) s = .next s ∧ exec .wait s = .next s

/-- R104: what each handler does to `mode`, over every mode and step index. -/
def Obligations.ModeTransitions : Prop :=
  ∀ s t : State,
    (∀ x, exec (.press x) s = .next t →
      t.regs.mode = (if s.regs.mode = .idle then .transmitting else s.regs.mode)) ∧
    (∀ x, exec (.release x) s = .next t →
      t.regs.mode = (if s.regs.mode = .transmitting then .finishing else s.regs.mode)) ∧
    (∀ q n, exec (.tick q n) s = .next t →
      t.regs.mode = (if s.regs.mode = .finishing ∧ s.regs.phase = 97#7 then .idle else s.regs.mode))

/-! ### Input monitor and tick generator -/

/-- R140 SAMPLE: `btn_q <- btn_n`, and nothing else changes. -/
def Obligations.SampleRemembersTheLevel : Prop :=
  ∀ (q n : Bool) (s : State), exec (.sample q n) s = .next { s with regs := { s.regs with btnQ := n } }

/-- R151, R152: ARM_SHORT loads `T_SHORT`, ARM_LONG `2 * T_SHORT`, both set `tmr_run`; nothing else changes. -/
def Obligations.ArmLoadsTheInterval : Prop :=
  ∀ (p : BitVec 6) (s : State),
    exec (.armShort p) s = .next { s with regs := { s.regs with
      tmrRun := true, tmrCnt := BitVec.ofNat 16 (s.cfg.unit.val + 1) } } ∧
    exec (.armLong p) s = .next { s with regs := { s.regs with
      tmrRun := true, tmrCnt := BitVec.ofNat 16 (2 * (s.cfg.unit.val + 1)) } }

/-- R153 COUNT, R154 EXPIRE, R155 HOLD. The last clause is the model's choice between the two ways R155 allows for
the unreachable pair (log 8). -/
def Obligations.CountExpireHold : Prop :=
  ∀ (c : Count) (s : State),
    exec (.count c) s = .next { s with regs := { s.regs with tmrCnt := s.regs.tmrCnt - 1#16 } } ∧
    exec .expire s = .next { s with regs := { s.regs with tmrCnt := 0#16, tmrRun := false } } ∧
    (¬ (s.regs.tmrRun = true ∧ s.regs.tmrCnt = 0#16) → exec (.hold c) s = .next s) ∧
    (s.regs.tmrRun = true → s.regs.tmrCnt = 0#16 →
      exec (.hold c) s = .next { s with regs := { s.regs with tmrRun := false } })

/-- R75 (and the interval column of R70): a step of even index arms long, one of odd index short, but for a stopping
BOUNDARY, which leaves the timer as it is. -/
def Obligations.StepParityArmsTheInterval : Prop :=
  ∀ s t : State, s.regs.phase.toNat ≤ 97 → exec (decodePhase s.regs.phase) s = .next t →
    (¬ (s.regs.phase = 97#7 ∧ s.regs.mode = .finishing) → t.regs.tmrRun = true ∧
      t.regs.tmrCnt.toNat = if s.regs.phase.toNat % 2 = 0 then tLong s.cfg else tShort s.cfg) ∧
    (s.regs.phase = 97#7 → s.regs.mode = .finishing →
      t.regs.tmrRun = s.regs.tmrRun ∧ t.regs.tmrCnt = s.regs.tmrCnt)

/-- R156: seen from a state whose timer runs with `n` cycles left while a transmission is on, no phase step comes
for `n - 1` cycles, the count goes down by one a cycle, and the Tick is detected in the `n`-th cycle and no earlier.
-/
def Obligations.TickComesExactlyWhenTheCountEnds : Prop :=
  ∀ (s : State) (n k : Nat), s.regs.mode ≠ .idle → s.regs.gie = true → s.regs.tmrRun = true → s.regs.tmrCnt.toNat = n →
    k < n → NoReset s k →
    ∃ t, runSteps k s = .next t ∧ t.regs.tmrRun = true ∧ t.regs.tmrCnt.toNat = n - k ∧
      t.tickNow = decide (k + 1 = n) ∧ t.regs.phase = s.regs.phase ∧ t.regs.led = s.regs.led ∧
      t.regs.rf = s.regs.rf ∧ t.regs.curByte = s.regs.curByte ∧ t.regs.mode ≠ .idle

/-! ### System and scheduler -/

/-- R210 RESET, selected by `rst = 1` (R180): every register, `btn_q` from the line; it reads the byte at offset 0, which
every store has (R9); a valid store goes live, any other raises `NoValidCode`, which is recorded and stops nothing. -/
def Obligations.ResetChecksTheStore : Prop :=
  ∀ s : State, (s.pins.rst = true → decodeReset s.pins.rst = .reset) ∧
    ∃ b, s.cfg.cs.read 0 = some b ∧
      (b.getLsbD 7 = true → exec .reset s = .next { s with regs :=
        ⟨.idle, 0#7, 0x00#8, false, false, true, false, 0#16, s.pins.btnN⟩ }) ∧
      (b.getLsbD 7 = false → exec .reset s = .next { s with regs :=
        ⟨.idle, 0#7, 0x00#8, true, false, false, false, 0#16, s.pins.btnN⟩ })

/-- R180, R181: the fault indication after RESET is `NoValidCode` exactly when the store is not valid, and no other
operation raises or clears it. -/
def Obligations.FaultRaisedByResetOnly : Prop :=
  ∀ (i : Instr) (s t : State), exec i s = .next t →
    (i = .reset → t.fault = if s.cfg.cs.valid then none else some .noValidCode) ∧
    (i ≠ .reset → t.fault = s.fault)

/-- R165, R80, R81: CYCLE is its decoded operations run one after the other: SAMPLE, the tick generator's operation,
then the handlers of the event vector (Tick first, R167) or NOEVENT. -/
def Obligations.CycleRunsItsDecodedOperations : Prop :=
  ∀ s : State, exec .cycle s = runOperations s.cycleOperations s

/-- R165 with R33: from a state that meets the invariant, with a sendable store, CYCLE completes; the invariant
holds after it, the button's level is remembered, and the configuration and the inputs stay. -/
def Obligations.CycleCompletesAndKeepsTheInvariant : Prop :=
  ∀ s : State, Inv s → Sendable s.cfg.cs →
    ∃ t, exec .cycle s = .next t ∧ Inv t ∧ t.regs.btnQ = s.pins.btnN ∧ t.regs.gie = s.regs.gie ∧
      t.cfg = s.cfg ∧ t.stim = s.stim ∧ t.freeIx = s.freeIx

/-- R166: with `gie = 0` and the timer stopped at 0, a cycle only follows the button, whatever the events. -/
def Obligations.InertCycleOnlySamples : Prop :=
  ∀ s : State, s.regs.gie = false → s.regs.tmrRun = false →
    exec .cycle s = .next { s with regs := { s.regs with btnQ := s.pins.btnN } }

/-- R169 item 1, the cycle itself: a Release in the cycle of the boundary tick of a Transmitting frame is handled after
BOUNDARY, which continues: the turnaround is armed and only then `mode` is Finishing. That one more whole frame follows
is `Obligations.ReleaseAfterTheBoundarySendsOneMoreFrame`. -/
def Obligations.ReleaseInTheBoundaryCycleComesAfterIt : Prop :=
  ∀ s : State, s.regs.gie = true → s.regs.mode = .transmitting → s.regs.phase = 97#7 → s.regs.tmrRun = true →
    s.regs.tmrCnt = 1#16 → s.regs.btnQ = false → s.pins.btnN = true →
    exec .cycle s = .next { s with regs := { s.regs with
      mode := .finishing, phase := 0#7, tmrRun := true, tmrCnt := BitVec.ofNat 16 (s.cfg.unit.val + 1), btnQ := true } }

/-- R169 item 3: a Press in the cycle of the stopping boundary tick. BOUNDARY stops first, so PRESS sees Idle and
starts a new transmission in the same cycle. -/
def Obligations.PressAtTheStopRestartsAtOnce : Prop :=
  ∀ (s : State) (b : Byte), s.regs.gie = true → s.regs.mode = .finishing → s.regs.phase = 97#7 → s.regs.tmrRun = true →
    s.regs.tmrCnt = 1#16 → s.regs.btnQ = true → s.pins.btnN = false → s.cfg.cs.read 0 = some b →
    exec .cycle s = .next { s with regs := { s.regs with
      mode := .transmitting, phase := 1#7, curByte := b, led := true, rf := false, tmrRun := true,
      tmrCnt := BitVec.ofNat 16 (2 * (s.cfg.unit.val + 1)), btnQ := false } }

/-- R169 item 4, R100: a Press in any cycle of a transmission but that of the stopping boundary tick is ignored: the cycle
ends as if the button had been down already. The blank before the boundary (step index 97, no Tick yet) is among them. -/
def Obligations.PressInAFrameIsIgnored : Prop :=
  ∀ s : State, s.regs.gie = true → s.regs.mode ≠ .idle →
    ¬ (s.regs.mode = .finishing ∧ s.regs.phase = 97#7 ∧ s.tickNow = true) →
    s.regs.btnQ = true → s.pins.btnN = false →
    exec .cycle s = exec .cycle { s with regs := { s.regs with btnQ := false } }

/-! ### The clock edge -/

/-- R165, R210: the word of `rst` decodes to one operation `i`, and a clock edge is exec of `i`, after which the
edge's input levels are used up; a stop stays a stop. -/
def Obligations.StepRunsTheDecodedOperation : Prop :=
  ∀ (s : State) (i : Instr), decode .resetLine [if s.pins.rst then 0x01#8 else 0x00#8] = .ok [i] →
    wellFormed i = true ∧
    (∀ t, exec i s = .next t → step s = .next t.advanceInputs) ∧
    (∀ f, exec i s = .fault f → step s = .fault f) ∧
    (∀ r, exec i s = .refused r → step s = .refused r)

/-- The word of `rst` always decodes, so the statement above speaks of every clock edge (R165, R210). -/
def Obligations.EveryClockEdgeDecodes : Prop :=
  ∀ s : State, decode .resetLine [if s.pins.rst then 0x01#8 else 0x00#8] =
    .ok [if s.pins.rst then .reset else .cycle]

/-- R60, R63, R31: no operation changes the Code Store, the configuration or the inputs; so every offset reads as
before (the whole memory frame, for every operation). -/
def Obligations.NoOperationWritesTheCodeStore : Prop :=
  ∀ (i : Instr) (s t : State), exec i s = .next t →
    t.cfg = s.cfg ∧ t.stim = s.stim ∧ t.freeIx = s.freeIx ∧ ∀ o, t.cfg.cs.read o = s.cfg.cs.read o

/-- The register frame of every operation, from R20's column "written by" (for the pair of U4, log 8). -/
def Obligations.OnlyTheListedRegistersAreWritten : Prop :=
  ∀ (i : Instr) (s t : State) (r : Register), exec i s = .next t → r ∉ writes i → Agree s.regs t.regs r

/-- The model's convention for the inputs (log 3): a clock edge that completes uses up one listed input, or one free
one when none is listed, and keeps the configuration. -/
def Obligations.StepUsesOneInput : Prop :=
  ∀ s t : State, step s = .next t →
    t.cfg = s.cfg ∧ t.stim = s.stim.tail ∧ t.freeIx = (if s.stim = [] then s.freeIx + 1 else s.freeIx)

/-- R127, R52 and R181 on a whole clock edge. No edge ANSWERS a fault: `NoValidCode`, which a RESET edge raises (R180,
R210), is recorded in the next state, as the model reads R180 (log 10, DEDUCED). A refused part refuses the whole edge,
the model's reading too (log 11, DEDUCED): that happens only for a reserved step index or a fetch of offset 1 or 2 beyond
the store, it does happen at the Tick of a reserved index, and a RESET edge always completes. -/
def Obligations.StepStopsOnlyOnTheTwoOpenCases : Prop :=
  ∀ s : State, (∀ f, step s ≠ .fault f) ∧
    (∀ r, step s = .refused r →
      (98 ≤ s.regs.phase.toNat ∧ ∃ x, r = .reservedStep x) ∨
      (∃ o, 1 ≤ o ∧ o ≤ 2 ∧ s.cfg.cs.len ≤ o ∧ r = .codeStoreRead o)) ∧
    (s.pins.rst = false → s.regs.gie = true → s.regs.mode ≠ .idle → s.tickNow = true → 98 ≤ s.regs.phase.toNat →
      step s = .refused (.reservedStep (s.regs.phase.extractLsb' 0 5))) ∧
    (s.pins.rst = true → ∃ t, step s = .next t)

/-! ### Invariants (spec/10_state.md R33) -/

/-- R33: every clock edge, a reset too, keeps the nine invariants, from every state that meets them. -/
def Obligations.StepKeepsTheInvariants : Prop :=
  ∀ s t : State, Inv s → step s = .next t → Inv t

/-- R33 holds of the state after reset. -/
def Obligations.ResetStateMeetsTheInvariants : Prop := Inv State.reset

/-- R211: a clock edge with `rst = 1` leaves one of exactly two register files, live or inert, whatever the state
before it was; `gie` says which, and the invariants hold. -/
def Obligations.ResetEdgeEstablishesTheInvariants : Prop :=
  ∀ s t : State, s.pins.rst = true → step s = .next t →
    (t.regs = ⟨.idle, 0#7, 0x00#8, false, false, true, false, 0#16, s.pins.btnN⟩ ∨
      t.regs = ⟨.idle, 0#7, 0x00#8, true, false, false, false, 0#16, s.pins.btnN⟩) ∧ Inv t ∧ GieRecordsValidity t ∧ HoldsByte t

/-- Whatever the inputs, a machine with a sendable store never stops: the invariants carry every clock edge to a
next state that meets them again (R33, R181). -/
def Obligations.SendableMachineNeverStops : Prop :=
  ∀ s : State, Inv s → Sendable s.cfg.cs → ∃ t, step s = .next t ∧ Inv t ∧ Sendable t.cfg.cs

/-- R22: in every state that meets the invariants, `cur_byte` holds the byte of the bit being sent, and every clock
edge keeps it so. -/
def Obligations.StepKeepsTheByteInHand : Prop :=
  ∀ s t : State, Inv s → HoldsByte s → step s = .next t → HoldsByte t

/-- R26: `gie` records the validity of the store, and every clock edge keeps it so. -/
def Obligations.StepKeepsGieAsValidity : Prop :=
  ∀ s t : State, GieRecordsValidity s → step s = .next t → GieRecordsValidity t

/-- R182: after RESET with bit 7 of the first byte clear, every later state is inert and Idle, with the LED lit and
RF off, for every sequence of button levels. -/
def Obligations.InvalidStoreNeverTransmits : Prop :=
  ∀ (s : State) (b : Byte) (n : Nat), s.pins.rst = true → s.cfg.cs.read 0 = some b → b.getLsbD 7 = false →
    ∃ u, step s = .next u ∧ (NoReset u n → ∃ t, runSteps n u = .next t ∧ t.regs.gie = false ∧ t.regs.mode = .idle ∧
      t.regs.led = true ∧ t.regs.rf = false ∧ t.regs.tmrRun = false ∧ t.activeO = false)

/-- R166, R180: without a reset an inert block stays inert under any input: LED lit, RF off, Idle, not active. -/
def Obligations.InertForEver : Prop :=
  ∀ (s : State) (n : Nat), Inv s → Inert s → NoReset s n →
    ∃ t, runSteps n s = .next t ∧ Inert t ∧ t.regs.mode = .idle ∧ t.ledO = true ∧ t.rfO = false ∧
      t.regs.tmrRun = false ∧ t.activeO = false

/-- R18: a live quiescent state changes only on a button edge. -/
def Obligations.QuiescentUntilAnEdge : Prop :=
  ∀ s : State, s.regs.gie = true → s.regs.mode = .idle → s.regs.tmrRun = false → s.pins.rst = false →
    s.pins.btnN = s.regs.btnQ → step s = .next s.advanceInputs

/-- R212: a button already down when reset ends produces no Press: while the line keeps the level it had at the
reset edge, every later state has the registers reset left. -/
def Obligations.ButtonHeldThroughResetDoesNothing : Prop :=
  ∀ (s u : State) (n : Nat), s.pins.rst = true → step s = .next u → NoReset u n →
    (∀ p ∈ u.stim.take n, p.btnN = s.pins.btnN) → ∃ t, runSteps n u = .next t ∧ t.regs = u.regs

/-- R101, R106 items 2 and 3: inside a frame the button decides nothing but Transmitting or Finishing. Two cycles
that differ only in the button and in which of the two modes holds leave the same step index, byte, outputs and
timer. -/
def Obligations.ButtonCannotDisturbAFrame : Prop :=
  ∀ s s' t t' : State, s.cfg = s'.cfg → s.regs.gie = true → s'.regs.gie = true →
    s.regs.mode ≠ .idle → s'.regs.mode ≠ .idle → s.regs.phase ≠ 97#7 →
    s'.regs = { s.regs with mode := s'.regs.mode, btnQ := s'.regs.btnQ } →
    exec .cycle s = .next t → exec .cycle s' = .next t' →
    t'.regs = { t.regs with mode := t'.regs.mode, btnQ := t'.regs.btnQ } ∧
      t.regs.mode ≠ .idle ∧ t'.regs.mode ≠ .idle

/-! ### Whole frames (spec/30_encoding.md R79, spec/41_phase_encoder.md R129) -/

/-- R70, R121: where a frame starts. The edge of a Press in Idle, and the edge that ends a turnaround, leave step 0 just
executed; a Release in the latter makes the frame the last. So what the statements below say of a frame they say of the
first and of every later one. -/
def Obligations.StepZeroStartsAFrame : Prop :=
  ∀ s : State,
    (PressComing s → ∃ t, step s = .next t ∧ FrameStarted t ∧ t.regs.mode = .transmitting ∧ t.cfg = s.cfg ∧
      t.stim = s.stim.tail) ∧
    (Inv s → s.regs.mode ≠ .idle → s.regs.phase = 0#7 → s.regs.tmrCnt = 1#16 → s.pins.rst = false →
      ∃ t, step s = .next t ∧ FrameStarted t ∧ t.cfg = s.cfg ∧ t.stim = s.stim.tail ∧
        t.regs.mode = (if s.regs.mode = .transmitting ∧ s.pins.btnN = true then .finishing else s.regs.mode))

/-- R79: in every frame, step `p` runs `t(p)` time units after step 0, whatever the button does: at that cycle `phase` is
`p + 1` and the interval of `p`'s parity is loaded; for any code and any `T_SHORT`. -/
def Obligations.FrameSchedule : Prop :=
  ∀ (s : State) (p : Nat), FrameStarted s → Sendable s.cfg.cs → p ≤ 96 → NoReset s (stepStart p * tShort s.cfg) →
    ∃ t, runSteps (stepStart p * tShort s.cfg) s = .next t ∧ t.regs.phase = BitVec.ofNat 7 (p + 1) ∧
      t.regs.tmrRun = true ∧ t.regs.tmrCnt.toNat = intervalCycles s.cfg (stepInterval p) ∧ t.regs.mode ≠ .idle

/-- R129: the outputs as a function of time, for every code and every `T_SHORT`: of any frame of a transmission, for every
button input; and, while the button stays down, of all the frames to come, the same function of `u - 147` in each, with
`(1, 0)` in the turnaround (log 13). -/
def Obligations.FrameWaveform : Prop :=
  ∀ (s : State) (m : Megacode), FrameStarted s → s.cfg.cs.megacode = some m →
    (∀ c, c < frameCycles s.cfg → NoReset s c →
      ∃ t, runSteps c s = .next t ∧ t.rfO = rfAt m (c / tShort s.cfg) ∧ t.ledO = !t.rfO ∧ t.activeO = true) ∧
    (∀ c, s.regs.mode = .transmitting → NoReset s c → (∀ k, k < c → listedButton s k = false) →
      ∃ t, runSteps c s = .next t ∧ t.rfO = rfAt m (c / tShort s.cfg % 147) ∧ t.ledO = !t.rfO ∧ t.activeO = true)

/-- R126, R231, R106 item 2, R169: what the boundary of any frame, 146 time units after its step 0, decides. A
Transmitting frame without a Release before that cycle repeats (and a Release in that very cycle makes the next frame the
last); one with a Release before it, or a Finishing one, stops; unless a Press falls in that very cycle, which starts the
first frame of a new transmission at once. -/
def Obligations.FrameBoundaryDecides : Prop :=
  ∀ s : State, FrameStarted s → Sendable s.cfg.cs → NoReset s (frameCycles s.cfg) →
    ∃ t, runSteps (frameCycles s.cfg) s = .next t ∧
      (s.regs.mode = .transmitting → (∀ k, k + 1 < frameCycles s.cfg → listedButton s k = false) →
        t.regs.phase = 0#7 ∧ t.ledO = true ∧ t.rfO = false ∧ t.regs.tmrCnt.toNat = tShort s.cfg ∧
        t.regs.mode = (if listedButton s (frameCycles s.cfg - 1) then .finishing else .transmitting)) ∧
      ((s.regs.mode = .finishing ∨ ∃ k, k + 1 < frameCycles s.cfg ∧ listedButton s k = true) →
        ¬ PressAt s (frameCycles s.cfg - 1) → Stopped t) ∧
      (PressAt s (frameCycles s.cfg - 1) → FrameStarted t ∧ t.regs.mode = .transmitting)

/-- R231, R169 item 1, R101: a Release in the cycle of the boundary tick or during the turnaround, and none before, lets
one more whole frame be sent: it starts 147 time units after this one, Finishing, and stops at its own boundary (unless a
Press falls in that very cycle). The turnaround is log 13. -/
def Obligations.ReleaseAfterTheBoundarySendsOneMoreFrame : Prop :=
  ∀ s : State, FrameStarted s → s.regs.mode = .transmitting → Sendable s.cfg.cs →
    NoReset s (periodCycles s.cfg + frameCycles s.cfg) →
    (∀ k, k + 1 < frameCycles s.cfg → listedButton s k = false) →
    (∃ k, frameCycles s.cfg ≤ k + 1 ∧ k < periodCycles s.cfg ∧ listedButton s k = true) →
    (∃ t, runSteps (periodCycles s.cfg) s = .next t ∧ FrameStarted t ∧ t.regs.mode = .finishing ∧ t.cfg = s.cfg ∧
      t.stim = s.stim.drop (periodCycles s.cfg)) ∧
    (¬ PressAt s (periodCycles s.cfg + frameCycles s.cfg - 1) →
      ∃ t, runSteps (periodCycles s.cfg + frameCycles s.cfg) s = .next t ∧ Stopped t)

/-- R79, R106 item 1: while the button is held, step 0 of a frame has run again after every 147 time units, and all nine
registers are as they were then. The 147th unit, the turnaround, is the spec's choice D9 (log 13). -/
def Obligations.HeldButtonRepeatsEvery147Units : Prop :=
  ∀ (s : State) (n : Nat), FrameStarted s → s.regs.mode = .transmitting → Sendable s.cfg.cs →
    NoReset s (n * periodCycles s.cfg) → (∀ k, k < n * periodCycles s.cfg → listedButton s k = false) →
    ∃ t, runSteps (n * periodCycles s.cfg) s = .next t ∧ t.regs = s.regs ∧ t.cfg = s.cfg ∧
      t.stim = s.stim.drop (n * periodCycles s.cfg)

/-! ### The Code Store (spec/20_memory.md) -/

/-- R55, R76: the bit a step sends out of the byte it needs is code bit `23 - b` of the megacode. -/
def Obligations.BitSentIsCodeBit23MinusB : Prop :=
  ∀ (cs : Memory) (m : Megacode) (p : Phase) (b : Byte), cs.megacode = some m → p.toNat ≤ 95 →
    cs.read (phaseO p).toNat = some b → bitValue b (phaseR p) = codeBit m (p.toNat / 4)

/-- R52, R56, R57, R40: a clock edge reads at most one byte of the Code Store, at offset 0, 1 or 2. -/
def Obligations.AtMostOneReadOfOffsetsZeroToTwo : Prop :=
  ∀ s : State, s.codeStoreReads.length ≤ 1 ∧ ∀ o ∈ s.codeStoreReads, o ≤ 2

/-- R52: a well formed store with a valid first code has four bytes or more, so it is sendable. -/
def Obligations.WellFormedValidStoreHasFourBytes : Prop :=
  ∀ cs : Memory, cs.wellFormedStore = true → cs.valid = true → 4 ≤ cs.len

/-! ### The event-level model (spec/00_scope.md R15, spec/40_engine_events.md R107) -/

/-- R107, R15: each handler does to the block what the event-level engine's answer and effects say. -/
def Obligations.HandlersAgreeWithTheEventLevelEngine : Prop :=
  ∀ (s : State) (e : Event),
    exec (handlerOf e) s = reflect s (engine s.cfg.cs s.engineState e)

/-- R15, R165, R107: a whole clock cycle is the event-level run of the cycle's events, in their order, on the state
that SAMPLE and the tick generator leave. -/
def Obligations.CycleAgreesWithTheEventLevelModel : Prop :=
  ∀ s u : State, runOperations [decodeButton s.buttonWord, decodeTimer s.timerWord] s = .next u →
    exec .cycle s = reflect u (engineRun s.cfg.cs s.engineState s.cycleEvents)

/-! ### Encodings (spec/30_encoding.md) -/

/-- R70, R73, R74: which step each index of a frame selects, with its fields. -/
def Obligations.StepIndexSelectsTheStep : Prop :=
  (∀ b : Fin 24,
    decodePhase (BitVec.ofNat 7 (4 * b.val)) = .pauseA (BitVec.ofNat 2 (b.val / 8)) (BitVec.ofNat 3 (b.val % 8)) ∧
    decodePhase (BitVec.ofNat 7 (4 * b.val + 1)) = .windowA (BitVec.ofNat 2 (b.val / 8)) (BitVec.ofNat 3 (b.val % 8)) ∧
    decodePhase (BitVec.ofNat 7 (4 * b.val + 2)) = .pauseB (BitVec.ofNat 2 (b.val / 8)) (BitVec.ofNat 3 (b.val % 8)) ∧
    decodePhase (BitVec.ofNat 7 (4 * b.val + 3)) = .windowB (BitVec.ofNat 2 (b.val / 8)) (BitVec.ofNat 3 (b.val % 8))) ∧
  decodePhase 0b1100000#7 = .blank ∧ decodePhase 0b1100001#7 = .boundary ∧
  ∀ x : BitVec 5, 2#5 ≤ x → decodePhase (0b11#2 ++ x) = .rsvdStep x

/-- R80: how the event vector `{tick, btn_q, btn_n}` is formed, and what its eight values deliver with `gie = 1`;
with `gie = 0` no handler (R81, R103). -/
def Obligations.EventVectorTable : Prop :=
  (∀ s : State, s.eventVector.getLsbD 2 = decide (s.regs.tmrRun = true ∧ s.regs.tmrCnt = 1#16) ∧
    s.eventVector.getLsbD 1 = s.regs.btnQ ∧ s.eventVector.getLsbD 0 = s.pins.btnN) ∧
  decodeEvent true 0b000#3 = [.noevent false] ∧ decodeEvent true 0b011#3 = [.noevent true] ∧
  decodeEvent true 0b010#3 = [.press false] ∧ decodeEvent true 0b001#3 = [.release false] ∧
  decodeEvent true 0b100#3 = [.tick false false] ∧ decodeEvent true 0b111#3 = [.tick true true] ∧
  decodeEvent true 0b110#3 = [.tick true false, .press true] ∧
  decodeEvent true 0b101#3 = [.tick false true, .release true] ∧
  ∀ ev : BitVec 3, decodeEvent false ev = [.noevent (ev.getLsbD 1)]

/-- Words of every selecting value, written out from the encodings of spec/opcode_table.json (R87), decode to their
operations. -/
def Obligations.WrittenOutWordsDecode : Prop :=
  decode .step [0b00101000#8] = .ok [.pauseA 1#2 2#3] ∧
  decode .step [0b01011111#8] = .ok [.windowB 2#2 7#3] ∧
  decode .arm [0b00101001#8] = .ok [.armShort 0b010100#6] ∧
  decode .event [0b00000110#8] = .ok [.tick true false, .press true] ∧
  decode .button [0b00000010#8] = .ok [.sample true false] ∧
  decode .timer [0xD0#8, 0x07#8, 0x01#8] = .ok [.count 2000#16] ∧
  decode .timer [0x01#8, 0x00#8, 0x01#8] = .ok [.expire] ∧
  decode .resetLine [0b00000001#8] = .ok [.reset] ∧
  decode .mode [0b00000000#8] = .ok [.wait]

/-- Every well-formed operation is decoded from its encoded word, alone unless the word is an event vector, which
may name a Tick and a button event together (R73, R80, R87). -/
def Obligations.DecodeReadsEveryEncodedOperation : Prop :=
  ∀ i : Instr, wellFormed i = true →
    ∃ l, decode (selectorOf i) (encode i) = .ok l ∧ i ∈ l ∧ (selectorOf i ≠ .event → l = [i])

/-- Every word that decodes is the encoded word of each operation it names, and each is well formed, but for the
timer pair `tmr_run = 1, tmr_cnt = 0`, which is read as HOLD (log 8). -/
def Obligations.EncodeGivesBackEveryDecodedWord : Prop :=
  ∀ (sel : Selector) (bytes : List Byte) (l : List Instr) (i : Instr), decode sel bytes = .ok l → i ∈ l →
    wellFormed i = true ∧ selectorOf i = sel ∧
      (¬ (sel = .timer ∧ bytes = [0x00#8, 0x00#8, 0x01#8]) → encode i = bytes)
end

