-- ==== Sys2Proof/Laws/Memory.lean ====
section
/-! SUPPORT. The Code Store: its operations keep the canonical form, a read gives the byte provisioned, and provisioning
one offset leaves every other alone. -/

namespace Sys2Proof

/-- The form holds from any lower offset too. -/
theorem cellsWf_mono (len : Nat) (cs : List Host.Cell) {lo lo' : Nat} (h : lo' ≤ lo) (hw : cellsWf len lo cs = true) :
    cellsWf len lo' cs = true := by
  cases cs with
  | nil => rfl
  | cons c cs =>
    simp only [cellsWf, Bool.and_eq_true, decide_eq_true_eq] at hw ⊢
    exact ⟨⟨⟨h.trans hw.1.1.1, hw.1.1.2⟩, hw.1.2⟩, hw.2⟩

theorem cellsWf_putCell (len : Nat) (o : Nat) (b : Byte) (ho : o < len) (hb : b ≠ Memory.unlisted o) :
    ∀ (cs : List Host.Cell) (lo : Nat), lo ≤ o → cellsWf len lo cs = true → cellsWf len lo (putCell cs o b) = true
  | [], lo, hlo, _ => by simp [putCell, cellsWf, hlo, ho, hb]
  | (a, c) :: cs, lo, hlo, hw => by
    simp only [cellsWf, Bool.and_eq_true, decide_eq_true_eq] at hw
    unfold putCell
    split
    · rename_i h
      simp only [cellsWf, Bool.and_eq_true, decide_eq_true_eq, bne_iff_ne]
      exact ⟨⟨⟨hlo, ho⟩, hb⟩, ⟨⟨h, hw.1.1.2⟩, by simpa using hw.1.2⟩, hw.2⟩
    · split
      · rename_i h
        subst h
        simp only [cellsWf, Bool.and_eq_true, decide_eq_true_eq, bne_iff_ne]
        exact ⟨⟨⟨hlo, ho⟩, hb⟩, hw.2⟩
      · rename_i h1 h2
        simp only [cellsWf, Bool.and_eq_true, decide_eq_true_eq]
        exact ⟨hw.1, cellsWf_putCell len o b ho hb cs (a + 1) (by omega) hw.2⟩

theorem cellsWf_dropCell (len : Nat) (o : Nat) :
    ∀ (cs : List Host.Cell) (lo : Nat), cellsWf len lo cs = true → cellsWf len lo (dropCell cs o) = true
  | [], _, _ => rfl
  | (a, c) :: cs, lo, hw => by
    simp only [cellsWf, Bool.and_eq_true, decide_eq_true_eq] at hw
    unfold dropCell
    split
    · exact cellsWf_mono len cs (by omega) hw.2
    · simp only [cellsWf, Bool.and_eq_true, decide_eq_true_eq]
      exact ⟨hw.1, cellsWf_dropCell len o cs (a + 1) hw.2⟩

/-- Provisioning a byte keeps the canonical form. -/
theorem Memory.wf_provision (m : Memory) (o : Nat) (b : Byte) (h : m.wf = true) : (m.provision o b).wf = true := by
  unfold Memory.provision
  split
  · rename_i ho
    unfold Memory.wf at h ⊢
    split
    · exact cellsWf_dropCell _ _ _ _ h
    · rename_i hb
      exact cellsWf_putCell _ _ _ ho hb _ _ (Nat.zero_le _) h
  · exact h

theorem cellsWf_cellsFrom : ∀ (bs : List Byte) (o : Nat), cellsWf (o + bs.length) o (cellsFrom o bs) = true
  | [], _ => rfl
  | b :: bs, o => by
    have ih := cellsWf_cellsFrom bs (o + 1)
    rw [show o + 1 + bs.length = o + (b :: bs).length by simp; omega] at ih
    unfold cellsFrom
    split
    · exact cellsWf_mono _ _ (Nat.le_succ o) ih
    · rename_i hb
      simp only [cellsWf, Bool.and_eq_true, decide_eq_true_eq, bne_iff_ne]
      exact ⟨⟨⟨le_refl _, by simp⟩, hb⟩, ih⟩

/-- A store made of a sequence of bytes is in canonical form. -/
theorem Memory.wf_ofBytes (b : Byte) (bs : List Byte) : (Memory.ofBytes b bs).wf = true := by
  simpa [Memory.wf, Memory.ofBytes, Memory.len] using cellsWf_cellsFrom (b :: bs) 0

/-- The reference store is in canonical form. -/
theorem Memory.wf_reference : Memory.reference.wf = true := rfl

/-! ### Reads -/

/-- The cells do not bear on the length. -/
@[simp] theorem Memory.len_withCells (m : Memory) (cs : List Host.Cell) : ({ m with cells := cs } : Memory).len = m.len := rfl

theorem cellAt_putCell (o : Nat) (b : Byte) (o' : Nat) :
    ∀ cs : List Host.Cell, cellAt (putCell cs o b) o' = if o = o' then some b else cellAt cs o'
  | [] => by simp [putCell, cellAt]
  | (a, c) :: cs => by
    unfold putCell
    split
    · simp [cellAt]
    · split
      · rename_i _ h
        subst h
        by_cases h' : o = o' <;> simp [cellAt, h']
      · rename_i h1 h2
        simp only [cellAt, cellAt_putCell o b o' cs]
        by_cases h' : a = o' <;> by_cases h3 : o = o' <;> simp [h', h3]
        omega

theorem cellAt_dropCell_ne (o o' : Nat) (h : o ≠ o') :
    ∀ cs : List Host.Cell, cellAt (dropCell cs o) o' = cellAt cs o'
  | [] => rfl
  | (a, c) :: cs => by
    unfold dropCell
    split
    · rename_i ha
      subst ha
      simp [cellAt, h]
    · simp [cellAt, cellAt_dropCell_ne o o' h cs]

theorem cellAt_below (len o : Nat) :
    ∀ (cs : List Host.Cell) (lo : Nat), o < lo → cellsWf len lo cs = true → cellAt cs o = none
  | [], _, _, _ => rfl
  | (a, c) :: cs, lo, hlo, hw => by
    simp only [cellsWf, Bool.and_eq_true, decide_eq_true_eq] at hw
    have ha : a ≠ o := by omega
    simp only [cellAt, ha, if_false]
    exact cellAt_below len o cs (a + 1) (by omega) hw.2

theorem cellAt_dropCell_self (len o : Nat) :
    ∀ (cs : List Host.Cell) (lo : Nat), cellsWf len lo cs = true → cellAt (dropCell cs o) o = none
  | [], _, _ => rfl
  | (a, c) :: cs, lo, hw => by
    simp only [cellsWf, Bool.and_eq_true, decide_eq_true_eq] at hw
    unfold dropCell
    split
    · rename_i ha
      exact cellAt_below len o cs (a + 1) (by omega) hw.2
    · rename_i ha
      simp only [cellAt, ha, if_false]
      exact cellAt_dropCell_self len o cs (a + 1) hw.2

/-- A read after provisioning the same offset gives the byte provisioned. -/
theorem Memory.read_provision_same (m : Memory) (o : Nat) (b : Byte) (hw : m.wf = true) (ho : o < m.len) :
    (m.provision o b).read o = some b := by
  unfold Memory.provision
  rw [if_pos ho]
  split
  · rename_i hb
    simp only [Memory.read, Memory.len_withCells, ho, if_true, cellAt_dropCell_self m.len o m.cells 0 hw, Option.getD_none, hb]
  · simp [Memory.read, ho, cellAt_putCell]

/-- Provisioning one offset leaves every other alone. -/
theorem Memory.read_provision_other (m : Memory) (o o' : Nat) (b : Byte) (h : o ≠ o') :
    (m.provision o b).read o' = m.read o' := by
  unfold Memory.provision
  split
  · split
    · simp [Memory.read, cellAt_dropCell_ne o o' h]
    · simp [Memory.read, cellAt_putCell, h]
  · rfl

theorem cellAt_cellsFrom (k : Nat) : ∀ (bs : List Byte) (o : Nat), k < bs.length →
    (cellAt (cellsFrom o bs) (o + k)).getD (Memory.unlisted (o + k)) = (bs[k]?).getD 0#8
  | [], _, h => by simp at h
  | b :: bs, o, h => by
    have below : cellAt (cellsFrom (o + 1) bs) o = none :=
      cellAt_below _ o _ (o + 1) (Nat.lt_succ_self o) (cellsWf_cellsFrom bs (o + 1))
    cases k with
    | zero =>
      unfold cellsFrom
      split
      · rename_i hb
        simp [below, hb]
      · simp [cellAt]
    | succ k =>
      have ih := cellAt_cellsFrom k bs (o + 1) (by simpa using h)
      rw [show o + (k + 1) = o + 1 + k by omega]
      unfold cellsFrom
      split
      · simpa using ih
      · rw [cellAt, if_neg (by omega)]
        simpa using ih

/-- The store made of a sequence of bytes reads as that sequence, and holds nothing beyond it. -/
theorem Memory.read_ofBytes (b : Byte) (bs : List Byte) (o : Nat) : (Memory.ofBytes b bs).read o = (b :: bs)[o]? := by
  unfold Memory.read Memory.ofBytes Memory.len
  by_cases h : o < (b :: bs).length
  · have := cellAt_cellsFrom o (b :: bs) 0 h
    simp only [Nat.zero_add] at this
    rw [if_pos (by simpa using h), this, List.getElem?_eq_getElem h]
    rfl
  · rw [if_neg (by simpa using h), List.getElem?_eq_none (Nat.le_of_not_lt h)]

/-- `CS_LEN >= 1` (R9). -/
theorem Memory.len_pos (m : Memory) : 0 < m.len := Nat.succ_pos m.last

/-- An offset exists exactly below `CS_LEN`. -/
theorem Memory.read_isSome (m : Memory) (o : Nat) : (m.read o).isSome = decide (o < m.len) := by
  unfold Memory.read
  split <;> simp [*]

theorem Memory.read_eq_none (m : Memory) (o : Nat) : m.read o = none ↔ m.len ≤ o := by
  unfold Memory.read
  split <;> simp <;> omega

/-- Every store has a byte at offset 0 (R9). -/
theorem Memory.read_zero (m : Memory) : ∃ b, m.read 0 = some b := by
  simp [Memory.read, m.len_pos]

/-- A store of three bytes or more holds a megacode. -/
theorem Memory.megacode_isSome (m : Memory) (h : 3 ≤ m.len) : m.megacode.isSome = true := by
  have h0 : 0 < m.len := by omega
  have h1 : 1 < m.len := by omega
  have h2 : 2 < m.len := by omega
  simp [Memory.megacode, Memory.read, h0, h1, h2]

end Sys2Proof
end

