-- ==== Sys2Proof/Laws/State.lean ====
section
/-! SUPPORT. One lemma per field per register update, so that no later proof unfolds a record update. -/

namespace Sys2Proof.Machine

variable (s : State)

/-! ### `setMode` -/

@[simp] theorem setMode_mode (m : Mode) : (s.setMode m).regs.mode = m := rfl
@[simp] theorem setMode_phase (m : Mode) : (s.setMode m).regs.phase = s.regs.phase := rfl
@[simp] theorem setMode_curByte (m : Mode) : (s.setMode m).regs.curByte = s.regs.curByte := rfl
@[simp] theorem setMode_led (m : Mode) : (s.setMode m).regs.led = s.regs.led := rfl
@[simp] theorem setMode_rf (m : Mode) : (s.setMode m).regs.rf = s.regs.rf := rfl
@[simp] theorem setMode_gie (m : Mode) : (s.setMode m).regs.gie = s.regs.gie := rfl
@[simp] theorem setMode_tmrRun (m : Mode) : (s.setMode m).regs.tmrRun = s.regs.tmrRun := rfl
@[simp] theorem setMode_tmrCnt (m : Mode) : (s.setMode m).regs.tmrCnt = s.regs.tmrCnt := rfl
@[simp] theorem setMode_btnQ (m : Mode) : (s.setMode m).regs.btnQ = s.regs.btnQ := rfl
@[simp] theorem setMode_cfg (m : Mode) : (s.setMode m).cfg = s.cfg := rfl
@[simp] theorem setMode_stim (m : Mode) : (s.setMode m).stim = s.stim := rfl
@[simp] theorem setMode_freeIx (m : Mode) : (s.setMode m).freeIx = s.freeIx := rfl
@[simp] theorem setMode_pins (m : Mode) : (s.setMode m).pins = s.pins := rfl

/-! ### `setPhase` -/

@[simp] theorem setPhase_mode (p : Phase) : (s.setPhase p).regs.mode = s.regs.mode := rfl
@[simp] theorem setPhase_phase (p : Phase) : (s.setPhase p).regs.phase = p := rfl
@[simp] theorem setPhase_curByte (p : Phase) : (s.setPhase p).regs.curByte = s.regs.curByte := rfl
@[simp] theorem setPhase_led (p : Phase) : (s.setPhase p).regs.led = s.regs.led := rfl
@[simp] theorem setPhase_rf (p : Phase) : (s.setPhase p).regs.rf = s.regs.rf := rfl
@[simp] theorem setPhase_gie (p : Phase) : (s.setPhase p).regs.gie = s.regs.gie := rfl
@[simp] theorem setPhase_tmrRun (p : Phase) : (s.setPhase p).regs.tmrRun = s.regs.tmrRun := rfl
@[simp] theorem setPhase_tmrCnt (p : Phase) : (s.setPhase p).regs.tmrCnt = s.regs.tmrCnt := rfl
@[simp] theorem setPhase_btnQ (p : Phase) : (s.setPhase p).regs.btnQ = s.regs.btnQ := rfl
@[simp] theorem setPhase_cfg (p : Phase) : (s.setPhase p).cfg = s.cfg := rfl
@[simp] theorem setPhase_stim (p : Phase) : (s.setPhase p).stim = s.stim := rfl
@[simp] theorem setPhase_freeIx (p : Phase) : (s.setPhase p).freeIx = s.freeIx := rfl
@[simp] theorem setPhase_pins (p : Phase) : (s.setPhase p).pins = s.pins := rfl

/-! ### `setCurByte` -/

@[simp] theorem setCurByte_mode (b : Byte) : (s.setCurByte b).regs.mode = s.regs.mode := rfl
@[simp] theorem setCurByte_phase (b : Byte) : (s.setCurByte b).regs.phase = s.regs.phase := rfl
@[simp] theorem setCurByte_curByte (b : Byte) : (s.setCurByte b).regs.curByte = b := rfl
@[simp] theorem setCurByte_led (b : Byte) : (s.setCurByte b).regs.led = s.regs.led := rfl
@[simp] theorem setCurByte_rf (b : Byte) : (s.setCurByte b).regs.rf = s.regs.rf := rfl
@[simp] theorem setCurByte_gie (b : Byte) : (s.setCurByte b).regs.gie = s.regs.gie := rfl
@[simp] theorem setCurByte_tmrRun (b : Byte) : (s.setCurByte b).regs.tmrRun = s.regs.tmrRun := rfl
@[simp] theorem setCurByte_tmrCnt (b : Byte) : (s.setCurByte b).regs.tmrCnt = s.regs.tmrCnt := rfl
@[simp] theorem setCurByte_btnQ (b : Byte) : (s.setCurByte b).regs.btnQ = s.regs.btnQ := rfl
@[simp] theorem setCurByte_cfg (b : Byte) : (s.setCurByte b).cfg = s.cfg := rfl
@[simp] theorem setCurByte_stim (b : Byte) : (s.setCurByte b).stim = s.stim := rfl
@[simp] theorem setCurByte_freeIx (b : Byte) : (s.setCurByte b).freeIx = s.freeIx := rfl
@[simp] theorem setCurByte_pins (b : Byte) : (s.setCurByte b).pins = s.pins := rfl

/-! ### `setOut` -/

@[simp] theorem setOut_mode (l r : Bool) : (s.setOut l r).regs.mode = s.regs.mode := rfl
@[simp] theorem setOut_phase (l r : Bool) : (s.setOut l r).regs.phase = s.regs.phase := rfl
@[simp] theorem setOut_curByte (l r : Bool) : (s.setOut l r).regs.curByte = s.regs.curByte := rfl
@[simp] theorem setOut_led (l r : Bool) : (s.setOut l r).regs.led = l := rfl
@[simp] theorem setOut_rf (l r : Bool) : (s.setOut l r).regs.rf = r := rfl
@[simp] theorem setOut_gie (l r : Bool) : (s.setOut l r).regs.gie = s.regs.gie := rfl
@[simp] theorem setOut_tmrRun (l r : Bool) : (s.setOut l r).regs.tmrRun = s.regs.tmrRun := rfl
@[simp] theorem setOut_tmrCnt (l r : Bool) : (s.setOut l r).regs.tmrCnt = s.regs.tmrCnt := rfl
@[simp] theorem setOut_btnQ (l r : Bool) : (s.setOut l r).regs.btnQ = s.regs.btnQ := rfl
@[simp] theorem setOut_cfg (l r : Bool) : (s.setOut l r).cfg = s.cfg := rfl
@[simp] theorem setOut_stim (l r : Bool) : (s.setOut l r).stim = s.stim := rfl
@[simp] theorem setOut_freeIx (l r : Bool) : (s.setOut l r).freeIx = s.freeIx := rfl
@[simp] theorem setOut_pins (l r : Bool) : (s.setOut l r).pins = s.pins := rfl

/-! ### `setGie` -/

@[simp] theorem setGie_mode (g : Bool) : (s.setGie g).regs.mode = s.regs.mode := rfl
@[simp] theorem setGie_phase (g : Bool) : (s.setGie g).regs.phase = s.regs.phase := rfl
@[simp] theorem setGie_curByte (g : Bool) : (s.setGie g).regs.curByte = s.regs.curByte := rfl
@[simp] theorem setGie_led (g : Bool) : (s.setGie g).regs.led = s.regs.led := rfl
@[simp] theorem setGie_rf (g : Bool) : (s.setGie g).regs.rf = s.regs.rf := rfl
@[simp] theorem setGie_gie (g : Bool) : (s.setGie g).regs.gie = g := rfl
@[simp] theorem setGie_tmrRun (g : Bool) : (s.setGie g).regs.tmrRun = s.regs.tmrRun := rfl
@[simp] theorem setGie_tmrCnt (g : Bool) : (s.setGie g).regs.tmrCnt = s.regs.tmrCnt := rfl
@[simp] theorem setGie_btnQ (g : Bool) : (s.setGie g).regs.btnQ = s.regs.btnQ := rfl
@[simp] theorem setGie_cfg (g : Bool) : (s.setGie g).cfg = s.cfg := rfl
@[simp] theorem setGie_stim (g : Bool) : (s.setGie g).stim = s.stim := rfl
@[simp] theorem setGie_freeIx (g : Bool) : (s.setGie g).freeIx = s.freeIx := rfl
@[simp] theorem setGie_pins (g : Bool) : (s.setGie g).pins = s.pins := rfl

/-! ### `setTimer` -/

@[simp] theorem setTimer_mode (run : Bool) (c : Count) : (s.setTimer run c).regs.mode = s.regs.mode := rfl
@[simp] theorem setTimer_phase (run : Bool) (c : Count) : (s.setTimer run c).regs.phase = s.regs.phase := rfl
@[simp] theorem setTimer_curByte (run : Bool) (c : Count) : (s.setTimer run c).regs.curByte = s.regs.curByte := rfl
@[simp] theorem setTimer_led (run : Bool) (c : Count) : (s.setTimer run c).regs.led = s.regs.led := rfl
@[simp] theorem setTimer_rf (run : Bool) (c : Count) : (s.setTimer run c).regs.rf = s.regs.rf := rfl
@[simp] theorem setTimer_gie (run : Bool) (c : Count) : (s.setTimer run c).regs.gie = s.regs.gie := rfl
@[simp] theorem setTimer_tmrRun (run : Bool) (c : Count) : (s.setTimer run c).regs.tmrRun = run := rfl
@[simp] theorem setTimer_tmrCnt (run : Bool) (c : Count) : (s.setTimer run c).regs.tmrCnt = c := rfl
@[simp] theorem setTimer_btnQ (run : Bool) (c : Count) : (s.setTimer run c).regs.btnQ = s.regs.btnQ := rfl
@[simp] theorem setTimer_cfg (run : Bool) (c : Count) : (s.setTimer run c).cfg = s.cfg := rfl
@[simp] theorem setTimer_stim (run : Bool) (c : Count) : (s.setTimer run c).stim = s.stim := rfl
@[simp] theorem setTimer_freeIx (run : Bool) (c : Count) : (s.setTimer run c).freeIx = s.freeIx := rfl
@[simp] theorem setTimer_pins (run : Bool) (c : Count) : (s.setTimer run c).pins = s.pins := rfl

/-! ### `setBtnQ` -/

@[simp] theorem setBtnQ_mode (x : Bool) : (s.setBtnQ x).regs.mode = s.regs.mode := rfl
@[simp] theorem setBtnQ_phase (x : Bool) : (s.setBtnQ x).regs.phase = s.regs.phase := rfl
@[simp] theorem setBtnQ_curByte (x : Bool) : (s.setBtnQ x).regs.curByte = s.regs.curByte := rfl
@[simp] theorem setBtnQ_led (x : Bool) : (s.setBtnQ x).regs.led = s.regs.led := rfl
@[simp] theorem setBtnQ_rf (x : Bool) : (s.setBtnQ x).regs.rf = s.regs.rf := rfl
@[simp] theorem setBtnQ_gie (x : Bool) : (s.setBtnQ x).regs.gie = s.regs.gie := rfl
@[simp] theorem setBtnQ_tmrRun (x : Bool) : (s.setBtnQ x).regs.tmrRun = s.regs.tmrRun := rfl
@[simp] theorem setBtnQ_tmrCnt (x : Bool) : (s.setBtnQ x).regs.tmrCnt = s.regs.tmrCnt := rfl
@[simp] theorem setBtnQ_btnQ (x : Bool) : (s.setBtnQ x).regs.btnQ = x := rfl
@[simp] theorem setBtnQ_cfg (x : Bool) : (s.setBtnQ x).cfg = s.cfg := rfl
@[simp] theorem setBtnQ_stim (x : Bool) : (s.setBtnQ x).stim = s.stim := rfl
@[simp] theorem setBtnQ_freeIx (x : Bool) : (s.setBtnQ x).freeIx = s.freeIx := rfl
@[simp] theorem setBtnQ_pins (x : Bool) : (s.setBtnQ x).pins = s.pins := rfl

/-! ### `arm` and `nextPhase`, by the updates they are made of -/

@[simp] theorem arm_mode (i : Interval) : (s.arm i).regs.mode = s.regs.mode := rfl
@[simp] theorem arm_phase (i : Interval) : (s.arm i).regs.phase = s.regs.phase := rfl
@[simp] theorem arm_curByte (i : Interval) : (s.arm i).regs.curByte = s.regs.curByte := rfl
@[simp] theorem arm_led (i : Interval) : (s.arm i).regs.led = s.regs.led := rfl
@[simp] theorem arm_rf (i : Interval) : (s.arm i).regs.rf = s.regs.rf := rfl
@[simp] theorem arm_gie (i : Interval) : (s.arm i).regs.gie = s.regs.gie := rfl
@[simp] theorem arm_tmrRun (i : Interval) : (s.arm i).regs.tmrRun = true := rfl
@[simp] theorem arm_tmrCnt (i : Interval) : (s.arm i).regs.tmrCnt = BitVec.ofNat 16 (intervalCycles s.cfg i) := rfl
@[simp] theorem arm_btnQ (i : Interval) : (s.arm i).regs.btnQ = s.regs.btnQ := rfl
@[simp] theorem arm_cfg (i : Interval) : (s.arm i).cfg = s.cfg := rfl
@[simp] theorem arm_stim (i : Interval) : (s.arm i).stim = s.stim := rfl
@[simp] theorem arm_freeIx (i : Interval) : (s.arm i).freeIx = s.freeIx := rfl
@[simp] theorem arm_pins (i : Interval) : (s.arm i).pins = s.pins := rfl
@[simp] theorem nextPhase_mode : s.nextPhase.regs.mode = s.regs.mode := rfl
@[simp] theorem nextPhase_phase : s.nextPhase.regs.phase = s.regs.phase + 1#7 := rfl
@[simp] theorem nextPhase_curByte : s.nextPhase.regs.curByte = s.regs.curByte := rfl
@[simp] theorem nextPhase_led : s.nextPhase.regs.led = s.regs.led := rfl
@[simp] theorem nextPhase_rf : s.nextPhase.regs.rf = s.regs.rf := rfl
@[simp] theorem nextPhase_gie : s.nextPhase.regs.gie = s.regs.gie := rfl
@[simp] theorem nextPhase_tmrRun : s.nextPhase.regs.tmrRun = s.regs.tmrRun := rfl
@[simp] theorem nextPhase_tmrCnt : s.nextPhase.regs.tmrCnt = s.regs.tmrCnt := rfl
@[simp] theorem nextPhase_btnQ : s.nextPhase.regs.btnQ = s.regs.btnQ := rfl
@[simp] theorem nextPhase_cfg : s.nextPhase.cfg = s.cfg := rfl
@[simp] theorem nextPhase_stim : s.nextPhase.stim = s.stim := rfl
@[simp] theorem nextPhase_freeIx : s.nextPhase.freeIx = s.freeIx := rfl
@[simp] theorem nextPhase_pins : s.nextPhase.pins = s.pins := rfl

/-! ### `advanceInputs` -/

@[simp] theorem advanceInputs_regs : s.advanceInputs.regs = s.regs := by unfold State.advanceInputs; split <;> rfl
@[simp] theorem advanceInputs_cfg : s.advanceInputs.cfg = s.cfg := by unfold State.advanceInputs; split <;> rfl

theorem advanceInputs_stim : s.advanceInputs.stim = s.stim.tail := by
  unfold State.advanceInputs; split <;> rename_i h <;> simp [h]

theorem advanceInputs_freeIx : s.advanceInputs.freeIx = if s.stim = [] then s.freeIx + 1 else s.freeIx := by
  unfold State.advanceInputs; split <;> rename_i h <;> simp [h]

/-- A listed input is the level at the coming edge. -/
theorem pins_of_stim_cons (p : Pins) (ps : List Pins) (h : s.stim = p :: ps) : s.pins = p := by
  simp [State.pins, h]

end Sys2Proof.Machine
end

