-- ==== Sys2Proof/Laws/Ops.lean ====
section
/-! SUPPORT. What each shared operation can do, said once: sequencing, the Code Store read, the fetch, the timer's part
of a cycle, the phase step, and the clock edge. -/

namespace Sys2Proof.Machine

/-! ### Sequencing -/

@[simp] theorem andThen_next (s : State) (f : State → Result) : andThen (.next s) f = f s := rfl
@[simp] theorem andThen_fault (e : Fault) (f : State → Result) : andThen (.fault e) f = .fault e := rfl
@[simp] theorem andThen_refused (r : Refusal) (f : State → Result) : andThen (.refused r) f = .refused r := rfl

@[simp] theorem andThen_pure (o : Result) : (andThen o fun s => .next s) = o := by cases o <;> rfl

/-- A sequence that answers a next state went through one. -/
theorem andThen_eq_next {o : Result} {f : State → Result} {t : State} :
    andThen o f = .next t ↔ ∃ s, o = .next s ∧ f s = .next t := by
  cases o <;> simp

/-- A sequence that is refused was refused in one of its parts. -/
theorem andThen_eq_refused {o : Result} {f : State → Result} {r : Refusal} :
    andThen o f = .refused r ↔ o = .refused r ∨ ∃ s, o = .next s ∧ f s = .refused r := by
  cases o <;> simp

/-- A sequence that faults faulted in one of its parts. -/
theorem andThen_eq_fault {o : Result} {f : State → Result} {e : Fault} :
    andThen o f = .fault e ↔ o = .fault e ∨ ∃ s, o = .next s ∧ f s = .fault e := by
  cases o <;> simp

/-! ### Interval lengths -/

@[simp] theorem intervalCycles_short (cfg : Config) : intervalCycles cfg .short = tShort cfg := rfl
@[simp] theorem intervalCycles_long (cfg : Config) : intervalCycles cfg .long = tLong cfg := rfl

theorem tShort_pos (cfg : Config) : 1 ≤ tShort cfg := Nat.le_add_left 1 _

theorem tShort_le (cfg : Config) : tShort cfg ≤ 32767 := cfg.unit.isLt

theorem tLong_eq (cfg : Config) : tLong cfg = 2 * tShort cfg := rfl

/-- Both intervals fit the 16-bit counter (R78 item 5). -/
theorem intervalCycles_toNat (cfg : Config) (i : Interval) :
    (BitVec.ofNat 16 (intervalCycles cfg i)).toNat = intervalCycles cfg i := by
  have h := tShort_le cfg
  have : intervalCycles cfg i < 2 ^ 16 := by cases i <;> simp [tLong_eq] <;> omega
  rw [BitVec.toNat_ofNat, Nat.mod_eq_of_lt this]

/-! ### The Code Store read and the fetch -/

/-- A read either hands on the byte or is refused because the offset is beyond the store. -/
theorem csRead_cases (s : State) (o : Nat) (k : Byte → Result) :
    (∃ b, s.cfg.cs.read o = some b ∧ s.csRead o k = k b) ∨
      (s.cfg.cs.len ≤ o ∧ s.csRead o k = .refused (.codeStoreRead o)) := by
  unfold State.csRead
  split
  · rename_i b h
    exact .inl ⟨b, h, rfl⟩
  · rename_i h
    exact .inr ⟨(s.cfg.cs.read_eq_none o).1 h, rfl⟩

/-- The fetch either does nothing (`r` not 0), or writes `cur_byte`, or is refused. -/
theorem fetchByte_cases (s : State) (o : BitVec 2) (r : BitVec 3) (k : State → Result) :
    (r ≠ 0#3 ∧ s.fetchByte o r k = k s) ∨
    (r = 0#3 ∧ ∃ b, s.cfg.cs.read o.toNat = some b ∧ s.fetchByte o r k = k (s.setCurByte b)) ∨
    (r = 0#3 ∧ s.cfg.cs.len ≤ o.toNat ∧ s.fetchByte o r k = .refused (.codeStoreRead o.toNat)) := by
  unfold State.fetchByte
  by_cases h : r = 0#3
  · simp only [fetches, h, decide_true, if_true]
    obtain ⟨b, hb, hk⟩ | ⟨hl, hk⟩ := csRead_cases s o.toNat (fun b => k (s.setCurByte b))
    · exact .inr (.inl ⟨trivial, b, hb, hk⟩)
    · exact .inr (.inr ⟨trivial, hl, hk⟩)
  · simp [fetches, h]

/-! ### The tick generator's part of a cycle -/

/-- HOLD, COUNT or EXPIRE, each by its selection (R153, R154, R155; the pair (1, 0) is stopped, U4). -/
theorem timerStep_cases (s : State) :
    (s.regs.tmrRun = false ∧ timerStep s = .next s) ∨
    (s.regs.tmrRun = true ∧ s.regs.tmrCnt = 0#16 ∧ timerStep s = .next (s.setTimer false 0#16)) ∨
    (s.regs.tmrRun = true ∧ s.regs.tmrCnt = 1#16 ∧ timerStep s = .next (s.setTimer false 0#16)) ∨
    (s.regs.tmrRun = true ∧ s.regs.tmrCnt ≠ 0#16 ∧ s.regs.tmrCnt ≠ 1#16 ∧
      timerStep s = .next (s.setTimer true (s.regs.tmrCnt - 1#16))) := by
  unfold timerStep
  by_cases hr : s.regs.tmrRun = true
  · by_cases h1 : s.regs.tmrCnt = 1#16
    · exact .inr (.inr (.inl ⟨hr, h1, by simp [hr, h1, execExpire]⟩))
    · by_cases h0 : s.regs.tmrCnt = 0#16
      · exact .inr (.inl ⟨hr, h0, by simp [hr, h0, execHold]⟩)
      · exact .inr (.inr (.inr ⟨hr, h0, h1, by simp [hr, h0, h1, execCount]⟩))
  · simp only [Bool.not_eq_true] at hr
    exact .inl ⟨hr, by simp [hr, execHold]⟩

/-! ### The phase step -/

/-- Everything a phase step can do (R120 to R127): one case per step, with its guard. -/
theorem phaseStep_cases (s : State) :
    (s.regs.phase = 96#7 ∧ phaseStep s = execBlank s) ∨
    (s.regs.phase = 97#7 ∧ phaseStep s = execBoundary s) ∨
    (98#7 ≤ s.regs.phase ∧ phaseStep s = .refused (.reservedStep (s.regs.phase.extractLsb' 0 5))) ∨
    (s.regs.phase.toNat ≤ 95 ∧
      ((phaseQ s.regs.phase = 0#2 ∧ phaseStep s = execPauseA (phaseO s.regs.phase) (phaseR s.regs.phase) s) ∨
       (phaseQ s.regs.phase = 1#2 ∧ phaseStep s = execWindowA (phaseO s.regs.phase) (phaseR s.regs.phase) s) ∨
       (phaseQ s.regs.phase = 2#2 ∧ phaseStep s = execPauseB (phaseO s.regs.phase) (phaseR s.regs.phase) s) ∨
       (phaseQ s.regs.phase = 3#2 ∧ phaseStep s = execWindowB (phaseO s.regs.phase) (phaseR s.regs.phase) s))) := by
  by_cases h96 : s.regs.phase = 96#7
  · exact .inl ⟨h96, by simp [phaseStep, h96]⟩
  by_cases h97 : s.regs.phase = 97#7
  · exact .inr (.inl ⟨h97, by simp [phaseStep, h97]⟩)
  by_cases h98 : 98#7 ≤ s.regs.phase
  · exact .inr (.inr (.inl ⟨h98, by simp [phaseStep, h96, h97, h98, execRsvdStep]⟩))
  refine .inr (.inr (.inr ⟨by bv_omega, ?_⟩))
  by_cases q0 : phaseQ s.regs.phase = 0#2
  · exact .inl ⟨q0, by simp [phaseStep, h96, h97, h98, q0]⟩
  by_cases q1 : phaseQ s.regs.phase = 1#2
  · exact .inr (.inl ⟨q1, by simp [phaseStep, h96, h97, h98, q1]⟩)
  by_cases q2 : phaseQ s.regs.phase = 2#2
  · exact .inr (.inr (.inl ⟨q2, by simp [phaseStep, h96, h97, h98, q2]⟩))
  · exact .inr (.inr (.inr ⟨by bv_omega, by simp [phaseStep, h96, h97, h98, q0, q1, q2]⟩))

/-! ### The clock edge -/

/-- A clock edge that answers a next state ran RESET or CYCLE and used up its input levels. -/
theorem step_eq_next {s t : State} :
    step s = .next t ↔
      ∃ u, t = u.advanceInputs ∧
        ((s.pins.rst = true ∧ execReset s = .next u) ∨ (s.pins.rst = false ∧ execCycle s = .next u)) := by
  unfold step
  rw [andThen_eq_next]
  cases h : s.pins.rst <;> simp only [decodeReset, exec, Bool.false_eq_true, if_false, if_true] <;> constructor
  all_goals
    rintro ⟨u, hu⟩
    exact ⟨u, by simp_all⟩

end Sys2Proof.Machine
end

