-- ==== Sys2Proof/Laws/Encoder.lean ====
section
/-! SUPPORT. What a phase step leaves when it completes, and when it completes (spec/41_phase_encoder.md). -/

namespace Sys2Proof.Machine

/-! ### The fields of a step index as numbers (R73) -/

theorem phaseQ_toNat (p : Phase) : (phaseQ p).toNat = p.toNat % 4 := by simp [phaseQ]

theorem phaseR_toNat (p : Phase) : (phaseR p).toNat = p.toNat / 4 % 8 := by simp [phaseR, Nat.shiftRight_eq_div_pow]

theorem phaseO_toNat (p : Phase) : (phaseO p).toNat = p.toNat / 32 := by
  simp [phaseO, Nat.shiftRight_eq_div_pow]; omega

/-! ### A pause, field by field (R121, R123) -/

@[simp] theorem pause_mode (s : State) : s.pause.regs.mode = s.regs.mode := rfl
@[simp] theorem pause_phase (s : State) : s.pause.regs.phase = s.regs.phase + 1#7 := rfl
@[simp] theorem pause_curByte (s : State) : s.pause.regs.curByte = s.regs.curByte := rfl
@[simp] theorem pause_led (s : State) : s.pause.regs.led = true := rfl
@[simp] theorem pause_rf (s : State) : s.pause.regs.rf = false := rfl
@[simp] theorem pause_gie (s : State) : s.pause.regs.gie = s.regs.gie := rfl
@[simp] theorem pause_tmrRun (s : State) : s.pause.regs.tmrRun = true := rfl
@[simp] theorem pause_tmrCnt (s : State) : s.pause.regs.tmrCnt = BitVec.ofNat 16 (tLong s.cfg) := rfl
@[simp] theorem pause_btnQ (s : State) : s.pause.regs.btnQ = s.regs.btnQ := rfl
@[simp] theorem pause_cfg (s : State) : s.pause.cfg = s.cfg := rfl
@[simp] theorem pause_stim (s : State) : s.pause.stim = s.stim := rfl
@[simp] theorem pause_freeIx (s : State) : s.pause.freeIx = s.freeIx := rfl
@[simp] theorem pause_pins (s : State) : s.pause.pins = s.pins := rfl

/-- The four kinds of completed phase step, told by their effects: the stop, the turnaround, the steps of even index and
those of odd index. -/
inductive StepEffect (s t : State) : Prop where
  | stop (phase : s.regs.phase = 97#7) (mode : s.regs.mode = .finishing)
      (eq : t = ((s.setOut false false).setMode .idle).setPhase 0#7)
  | turnaround (phase : s.regs.phase = 97#7) (mode : s.regs.mode ≠ .finishing)
      (eq : t = (s.arm .short).setPhase 0#7)
  | even (range : s.regs.phase.toNat ≤ 96) (parity : s.regs.phase.toNat % 2 = 0) (b : Byte)
      (fetch : (s.regs.phase.toNat ≤ 95 ∧ s.regs.phase.toNat % 32 = 0 ∧
          s.cfg.cs.read (s.regs.phase.toNat / 32) = some b) ∨
        ((s.regs.phase.toNat = 96 ∨ s.regs.phase.toNat % 32 ≠ 0) ∧ b = s.regs.curByte))
      (eq : t = (s.setCurByte b).pause)
  | odd (range : s.regs.phase.toNat ≤ 95) (parity : s.regs.phase.toNat % 2 = 1) (l r : Bool)
      (outputs : (s.regs.phase.toNat % 4 = 1 ∧ l = bitValue s.regs.curByte (phaseR s.regs.phase) ∧ r = !l) ∨
        (s.regs.phase.toNat % 4 = 3 ∧ bitValue s.regs.curByte (phaseR s.regs.phase) = true ∧ l = false ∧ r = true) ∨
        (s.regs.phase.toNat % 4 = 3 ∧ bitValue s.regs.curByte (phaseR s.regs.phase) = false ∧ l = s.regs.led ∧
          r = s.regs.rf))
      (eq : t = ((s.setOut l r).arm .short).nextPhase)

/-- Everything a completed phase step does. -/
theorem phaseStep_next {s t : State} (h : phaseStep s = .next t) : StepEffect s t := by
  have q := phaseQ_toNat s.regs.phase
  have r := phaseR_toNat s.regs.phase
  have o := phaseO_toNat s.regs.phase
  obtain ⟨hp, e⟩ | ⟨hp, e⟩ | ⟨-, e⟩ | ⟨hp, ⟨hq, e⟩ | ⟨hq, e⟩ | ⟨hq, e⟩ | ⟨hq, e⟩⟩ := phaseStep_cases s
  · rw [e, execBlank] at h
    cases h
    refine .even (by simp [hp]) (by simp [hp]) s.regs.curByte (.inr ⟨by simp [hp], rfl⟩) ?_
    simp only [State.pause, State.nextPhase, State.setPhase, State.arm, State.setTimer, State.setOut, State.setCurByte, hp]
    rfl
  · rw [e, execBoundary] at h
    split at h <;> cases h
    · exact .stop hp ‹_› rfl
    · exact .turnaround hp ‹_› rfl
  · rw [e] at h; cases h
  all_goals
    have hq' := congrArg BitVec.toNat hq
    rw [q] at hq'
    simp only [BitVec.toNat_ofNat, Nat.reducePow, Nat.reduceMod] at hq'
  · rw [e, execPauseA] at h
    obtain ⟨hr, e2⟩ | ⟨hr, b, hb, e2⟩ | ⟨hr, hl, e2⟩ :=
      fetchByte_cases s (phaseO s.regs.phase) (phaseR s.regs.phase) (fun t => .next t.pause)
    · have h32 : s.regs.phase.toNat % 32 ≠ 0 := by
        intro h0
        apply hr
        apply BitVec.eq_of_toNat_eq
        rw [r]
        simp only [BitVec.toNat_ofNat, Nat.reducePow, Nat.zero_mod]
        omega
      rw [e2] at h
      cases h
      exact .even (by omega) (by omega) s.regs.curByte (.inr ⟨.inr h32, rfl⟩) rfl
    · have hr' := congrArg BitVec.toNat hr
      rw [r] at hr'
      simp only [BitVec.toNat_ofNat, Nat.reducePow, Nat.zero_mod] at hr'
      rw [o] at hb
      rw [e2] at h
      cases h
      exact .even (by omega) (by omega) b (.inl ⟨hp, by omega, hb⟩) rfl
    · rw [e2] at h; cases h
  · rw [e, execWindowA] at h
    cases h
    exact .odd hp (by omega) (bitValue s.regs.curByte (phaseR s.regs.phase))
      (!bitValue s.regs.curByte (phaseR s.regs.phase)) (.inl ⟨by omega, rfl, rfl⟩) (by simp [State.window])
  · rw [e, execPauseB] at h
    cases h
    exact .even (by omega) (by omega) s.regs.curByte (.inr ⟨.inr (by omega), rfl⟩) rfl
  · rw [e, execWindowB] at h
    split at h <;> cases h
    · exact .odd hp (by omega) false true (.inr (.inl ⟨by omega, ‹_›, rfl, rfl⟩)) rfl
    · rename_i hv
      exact .odd hp (by omega) s.regs.led s.regs.rf
        (.inr (.inr ⟨by omega, by simpa using hv, rfl, rfl⟩)) rfl

/-- A phase step of a frame's index completes on a sendable store. -/
theorem phaseStep_completes (s : State) (hp : s.regs.phase.toNat ≤ 97) (hs : Sendable s.cfg.cs) :
    ∃ t, phaseStep s = .next t := by
  obtain ⟨-, e⟩ | ⟨-, e⟩ | ⟨h98, e⟩ | ⟨h95, ⟨-, e⟩ | ⟨-, e⟩ | ⟨-, e⟩ | ⟨-, e⟩⟩ := phaseStep_cases s
  · exact ⟨_, e⟩
  · rw [e, execBoundary]
    split <;> exact ⟨_, rfl⟩
  · exfalso
    rw [BitVec.le_def] at h98
    simp only [BitVec.toNat_ofNat, Nat.reducePow, Nat.reduceMod] at h98
    omega
  · rw [e, execPauseA]
    obtain ⟨-, e2⟩ | ⟨-, b, -, e2⟩ | ⟨-, hl, -⟩ :=
      fetchByte_cases s (phaseO s.regs.phase) (phaseR s.regs.phase) (fun t => .next t.pause)
    · exact ⟨_, e2⟩
    · exact ⟨_, e2⟩
    · exfalso
      rw [phaseO_toNat] at hl
      unfold Sendable at hs
      omega
  all_goals exact ⟨_, e⟩

/-- A phase step never faults, and is refused only for a reserved index or a fetch beyond the store (R127, R52). -/
theorem phaseStep_refused {s : State} : (∀ f, phaseStep s ≠ .fault f) ∧ ∀ r, phaseStep s = .refused r →
    (98 ≤ s.regs.phase.toNat ∧ ∃ x, r = .reservedStep x) ∨
      (s.regs.phase.toNat ≤ 95 ∧ s.cfg.cs.len ≤ s.regs.phase.toNat / 32 ∧
        r = .codeStoreRead (s.regs.phase.toNat / 32)) := by
  obtain ⟨-, e⟩ | ⟨-, e⟩ | ⟨h98, e⟩ | ⟨h95, ⟨-, e⟩ | ⟨-, e⟩ | ⟨-, e⟩ | ⟨-, e⟩⟩ := phaseStep_cases s
  · exact ⟨by simp [e, execBlank], by simp [e, execBlank]⟩
  · rw [e, execBoundary]
    split <;> simp
  · rw [e]
    rw [BitVec.le_def] at h98
    refine ⟨by simp, fun r hr => .inl ⟨by simpa using h98, s.regs.phase.extractLsb' 0 5, ?_⟩⟩
    cases hr
    rfl
  · rw [e, execPauseA]
    obtain ⟨-, e2⟩ | ⟨-, b, -, e2⟩ | ⟨-, hl, e2⟩ :=
      fetchByte_cases s (phaseO s.regs.phase) (phaseR s.regs.phase) (fun t => .next t.pause)
    · simp [e2]
    · simp [e2]
    · rw [e2]
      rw [phaseO_toNat] at *
      refine ⟨by simp, fun r hr => .inr ⟨h95, hl, ?_⟩⟩
      cases hr
      rfl
  · exact ⟨by simp [e, execWindowA], by simp [e, execWindowA]⟩
  · exact ⟨by simp [e, execPauseB], by simp [e, execPauseB]⟩
  · exact ⟨by simp [e, execWindowB], by simp [e, execWindowB]⟩

end Sys2Proof.Machine
end

