-- ==== Sys2Proof/Laws/PerInstr.lean ====
section
/-! SUPPORT. What holds of every operation as syntax, one lemma per constructor: its encoded word fits its selecting
value (`EncodeFits`), and it carries the fixed bits of its row of spec/opcode_table.json (`EncodeMatchesRow`). -/

namespace Sys2Proof.Laws.EncodeFits

/-- The encoded word has no bit above its selecting value's width. -/
def Statement (i : Instr) : Prop := encodeWord i < 2 ^ selectorWidth (selectorOf i)

theorem pauseA (o : BitVec 2) (r : BitVec 3) : Statement (.pauseA o r) := BitVec.isLt _
theorem windowA (o : BitVec 2) (r : BitVec 3) : Statement (.windowA o r) := BitVec.isLt _
theorem pauseB (o : BitVec 2) (r : BitVec 3) : Statement (.pauseB o r) := BitVec.isLt _
theorem windowB (o : BitVec 2) (r : BitVec 3) : Statement (.windowB o r) := BitVec.isLt _
theorem blank : Statement .blank := by unfold Statement; decide
theorem boundary : Statement .boundary := by unfold Statement; decide
theorem rsvdStep (x : BitVec 5) : Statement (.rsvdStep x) := BitVec.isLt _
theorem press (t : Bool) : Statement (.press t) := by
  unfold Statement; cases t <;> decide
theorem release (t : Bool) : Statement (.release t) := by
  unfold Statement; cases t <;> decide
theorem tick (q : Bool) (n : Bool) : Statement (.tick q n) := by
  unfold Statement; cases q <;> cases n <;> decide
theorem noevent (q : Bool) : Statement (.noevent q) := by
  unfold Statement; cases q <;> decide
theorem sample (q : Bool) (n : Bool) : Statement (.sample q n) := by
  unfold Statement; cases q <;> cases n <;> decide
theorem armShort (p : BitVec 6) : Statement (.armShort p) := BitVec.isLt _
theorem armLong (p : BitVec 6) : Statement (.armLong p) := BitVec.isLt _
theorem count (c : Count) : Statement (.count c) := BitVec.isLt _
theorem expire : Statement .expire := by unfold Statement; decide
theorem hold (c : Count) : Statement (.hold c) := BitVec.isLt _
theorem cycle : Statement .cycle := by unfold Statement; decide
theorem reset : Statement .reset := by unfold Statement; decide
theorem wait : Statement .wait := by unfold Statement; decide

end Sys2Proof.Laws.EncodeFits

namespace Sys2Proof.Laws.EncodeMatchesRow

/-- The `match` and `mask` of an operation's row (spec/opcode_table.json). -/
def row : Instr → Nat × Nat
  | .pauseA _ _ => (0x00, 0x03)
  | .windowA _ _ => (0x01, 0x03)
  | .pauseB _ _ => (0x02, 0x03)
  | .windowB _ _ => (0x03, 0x03)
  | .blank => (0x60, 0x7F)
  | .boundary => (0x61, 0x7F)
  | .rsvdStep _ => (0x60, 0x60)
  | .press _ => (0x2, 0x3)
  | .release _ => (0x1, 0x3)
  | .tick _ _ => (0x4, 0x4)
  | .noevent _ => (0x0, 0x4)
  | .sample _ _ => (0x0, 0x0)
  | .armShort _ => (0x01, 0x01)
  | .armLong _ => (0x00, 0x01)
  | .count _ => (0x10000, 0x10000)
  | .expire => (0x10001, 0x1FFFF)
  | .hold _ => (0x00000, 0x10000)
  | .cycle => (0x0, 0x1)
  | .reset => (0x1, 0x1)
  | .wait => (0x0, 0x3)

/-- The encoded word of a well-formed operation carries its row's fixed bits. -/
def Statement (i : Instr) : Prop := wellFormed i = true → encodeWord i &&& (row i).2 = (row i).1

theorem pauseA (o : BitVec 2) (r : BitVec 3) : Statement (.pauseA o r) := by
  unfold Statement; revert o r; decide
theorem windowA (o : BitVec 2) (r : BitVec 3) : Statement (.windowA o r) := by
  unfold Statement; revert o r; decide
theorem pauseB (o : BitVec 2) (r : BitVec 3) : Statement (.pauseB o r) := by
  unfold Statement; revert o r; decide
theorem windowB (o : BitVec 2) (r : BitVec 3) : Statement (.windowB o r) := by
  unfold Statement; revert o r; decide
theorem blank : Statement .blank := by unfold Statement; decide
theorem boundary : Statement .boundary := by unfold Statement; decide
theorem rsvdStep (x : BitVec 5) : Statement (.rsvdStep x) := by
  unfold Statement; revert x; decide
theorem press (t : Bool) : Statement (.press t) := by
  unfold Statement; cases t <;> decide
theorem release (t : Bool) : Statement (.release t) := by
  unfold Statement; cases t <;> decide
theorem tick (q : Bool) (n : Bool) : Statement (.tick q n) := by
  unfold Statement; cases q <;> cases n <;> decide
theorem noevent (q : Bool) : Statement (.noevent q) := by
  unfold Statement; cases q <;> decide
theorem sample (q : Bool) (n : Bool) : Statement (.sample q n) := by
  unfold Statement; cases q <;> cases n <;> decide
theorem armShort (p : BitVec 6) : Statement (.armShort p) := by
  unfold Statement; revert p; decide
theorem armLong (p : BitVec 6) : Statement (.armLong p) := by
  unfold Statement; revert p; decide
theorem count (c : Count) : Statement (.count c) := by
  intro _
  have h : (0b1#1 ++ c) &&& 0x10000#17 = 0x10000#17 := by
    ext i hi
    interval_cases i <;> simp
    rw [BitVec.getElem_append]; simp
  simpa [encodeWord, row] using congrArg BitVec.toNat h
theorem expire : Statement .expire := by unfold Statement; decide
theorem hold (c : Count) : Statement (.hold c) := by
  intro _
  have h : (0b0#1 ++ c) &&& 0x10000#17 = 0#17 := by
    ext i hi
    interval_cases i <;> simp
    rw [BitVec.getElem_append]; simp
  simpa [encodeWord, row] using congrArg BitVec.toNat h
theorem cycle : Statement .cycle := by unfold Statement; decide
theorem reset : Statement .reset := by unfold Statement; decide
theorem wait : Statement .wait := by unfold Statement; decide

end Sys2Proof.Laws.EncodeMatchesRow
end

