-- ==== Sys2Proof/Laws/Scheduler.lean ====
section
/-! SUPPORT. What the handlers and a clock cycle do (spec/40_engine_events.md, spec/44_scheduler.md), and the bits of
the words a cycle decodes. -/

namespace Sys2Proof.Machine

/-! ### Bits of the selecting words (R80, R87) -/

@[simp] theorem eventVector_tick (s : State) : s.eventVector.getLsbD 2 = s.tickNow := by
  unfold State.eventVector
  cases s.tickNow <;> cases s.regs.btnQ <;> cases s.pins.btnN <;> rfl

@[simp] theorem eventVector_btnQ (s : State) : s.eventVector.getLsbD 1 = s.regs.btnQ := by
  unfold State.eventVector
  cases s.tickNow <;> cases s.regs.btnQ <;> cases s.pins.btnN <;> rfl

@[simp] theorem eventVector_btnN (s : State) : s.eventVector.getLsbD 0 = s.pins.btnN := by
  unfold State.eventVector
  cases s.tickNow <;> cases s.regs.btnQ <;> cases s.pins.btnN <;> rfl

@[simp] theorem buttonWord_btnQ (s : State) : s.buttonWord.getLsbD 1 = s.regs.btnQ := by
  unfold State.buttonWord
  cases s.regs.btnQ <;> cases s.pins.btnN <;> rfl

@[simp] theorem buttonWord_btnN (s : State) : s.buttonWord.getLsbD 0 = s.pins.btnN := by
  unfold State.buttonWord
  cases s.regs.btnQ <;> cases s.pins.btnN <;> rfl

@[simp] theorem timerWord_run (s : State) : s.timerWord.getLsbD 16 = s.regs.tmrRun := by
  unfold State.timerWord
  rw [BitVec.getLsbD_append]
  simp

@[simp] theorem timerWord_cnt (s : State) : s.timerWord.extractLsb' 0 16 = s.regs.tmrCnt := by
  apply BitVec.eq_of_getLsbD_eq
  intro i hi
  unfold State.timerWord
  rw [BitVec.getLsbD_extractLsb', BitVec.getLsbD_append]
  simp [hi]

/-! ### Handlers -/

/-- PRESS either is ignored or starts a transmission. -/
theorem execPress_cases (x : Bool) (s : State) :
    (s.regs.mode ≠ .idle ∧ execPress x s = .next s) ∨
    (s.regs.mode = .idle ∧ ∃ b, s.cfg.cs.read 0 = some b ∧
      execPress x s = .next ((((s.setMode .transmitting).setPhase 0#7).setCurByte b).pause)) := by
  unfold execPress
  by_cases hm : s.regs.mode = .idle
  · rw [if_pos hm]
    have e : phaseStep ((s.setMode .transmitting).setPhase 0#7) =
        execPauseA 0#2 0#3 ((s.setMode .transmitting).setPhase 0#7) := by
      unfold phaseStep
      simp [phaseQ, phaseO, phaseR]
    rw [e, execPauseA]
    obtain ⟨hr, -⟩ | ⟨-, b, hb, e2⟩ | ⟨-, hl, e2⟩ :=
      fetchByte_cases ((s.setMode .transmitting).setPhase 0#7) 0#2 0#3 (fun t => .next t.pause)
    · exact absurd rfl hr
    · exact .inr ⟨hm, b, hb, e2⟩
    · exact absurd hl (Nat.not_le_of_lt s.cfg.cs.len_pos)
  · exact .inl ⟨hm, by simp [hm]⟩

/-- RESET always completes: every store has a byte at offset 0 (R9). -/
theorem execReset_next (s : State) : ∃ b, s.cfg.cs.read 0 = some b ∧
    execReset s = .next (if b.getLsbD 7 then { s with regs := liveRegs s.pins.btnN }
      else State.raiseNoValidCode { s with regs := liveRegs s.pins.btnN }) := by
  obtain ⟨b, hb⟩ := s.cfg.cs.read_zero
  exact ⟨b, hb, by simp [execReset, State.csRead, hb]⟩

/-- TICK either is ignored or runs a phase step. -/
theorem execTick_cases (q n : Bool) (s : State) :
    (s.regs.mode = .idle ∧ execTick q n s = .next s) ∨ (s.regs.mode ≠ .idle ∧ execTick q n s = phaseStep s) := by
  unfold execTick
  by_cases hm : s.regs.mode = .idle <;> simp [hm]

/-! ### The cycle -/

@[simp] theorem waitIfIdle_eq (s : State) : waitIfIdle s = .next s := by
  unfold waitIfIdle execWait
  split <;> rfl

@[simp] theorem andThen_waitIfIdle (o : Result) : andThen o waitIfIdle = o := by
  cases o <;> simp

/-- CYCLE without the wait at its end, which changes nothing (R200). -/
theorem execCycle_eq (s : State) : execCycle s = andThen (timerStep (s.setBtnQ s.pins.btnN))
    (handleEvents s.tickNow s.regs.btnQ s.pins.btnN) := by
  unfold execCycle execSample
  simp

/-- What the tick generator's part of a cycle leaves: the two timer registers, and nothing else. -/
theorem timerStep_next (s : State) : ∃ run cnt, timerStep s = .next (s.setTimer run cnt) ∧
    (s.regs.tmrRun = false → run = false ∧ cnt = s.regs.tmrCnt) ∧
    (s.regs.tmrRun = true → s.regs.tmrCnt.toNat ≤ 1 → run = false ∧ cnt = 0#16) ∧
    (s.regs.tmrRun = true → 2 ≤ s.regs.tmrCnt.toNat → run = true ∧ cnt.toNat = s.regs.tmrCnt.toNat - 1) := by
  obtain ⟨h, e⟩ | ⟨h, h0, e⟩ | ⟨h, h0, e⟩ | ⟨h, h0, h1, e⟩ := timerStep_cases s
  · refine ⟨s.regs.tmrRun, s.regs.tmrCnt, e, fun _ => by simp [h], fun h' => by simp [h] at h', fun h' => by simp [h] at h'⟩
  · exact ⟨_, _, e, fun h' => by simp [h] at h', fun _ _ => by simp, fun _ h' => by simp [h0] at h'⟩
  · exact ⟨_, _, e, fun h' => by simp [h] at h', fun _ _ => by simp, fun _ h' => by simp [h0] at h'⟩
  · refine ⟨_, _, e, fun h' => by simp [h] at h', fun _ h' => ?_, fun _ h' => ⟨rfl, by bv_omega⟩⟩
    exfalso
    bv_omega

/-- The handlers of a cycle: none, or Tick and then a button event. -/
theorem handleEvents_cases (tick q n : Bool) (s : State) :
    (s.regs.gie = false ∧ handleEvents tick q n s = .next s) ∨
    (s.regs.gie = true ∧ handleEvents tick q n s =
      andThen (if tick then execTick q n s else .next s) (fun s1 =>
        if q && !n then execPress tick s1 else if !q && n then execRelease tick s1 else .next s1)) := by
  unfold handleEvents execNoevent
  cases hg : s.regs.gie
  · exact .inl ⟨rfl, by simp⟩
  · refine .inr ⟨rfl, ?_⟩
    cases tick <;> cases q <;> cases n <;> simp [pressEdge, releaseEdge]

end Sys2Proof.Machine
end

