-- ==== Sys2Proof/Tests/Slice0.lean ====
section
/-! SUPPORT. The checks of well-formedness, the decoding of words written out from the encodings of
spec/opcode_table.json, one step per operation from the vectors of spec/95_test_vectors.md (each test names its
vector), and a state that meets the hypotheses of every statement, clause by clause. -/

namespace Sys2Proof.Tests

open Machine

/-! ### Helpers -/

/-- The reference store `REF`. -/
def ref : Memory := Memory.ofBytes 0xC9#8 [0x17#8, 0xC2#8, 0x00#8]

/-- A store of one byte: valid, but too short to be sent (vector M8). -/
def short : Memory := Memory.ofBytes 0x80#8 []

/-- `F_CLK = 1 MHz` (example S9). -/
def megahertz : { f : Rat // 0 < f } := ⟨1000000, by norm_num⟩

/-- A state with the given registers and inputs; `T_SHORT` is `u + 1`, the store `REF` unless another is given. -/
def st (r : Regs) (stim : List Pins := []) (cs : Memory := ref) (u : Fin 32767 := 0) : State :=
  { regs := r, cfg := { cs := cs, unit := u, fClk := megahertz }, stim := stim, freeIx := 0 }

/-- A live register file in a mode at a step index with a byte in hand, the timer about to expire, the button at `q`. -/
def at_ (m : Mode) (p : Phase) (b : Byte) (led rf : Bool) (q : Bool := false) : Regs := ⟨m, p, b, led, rf, true, true, 1#16, q⟩

/-- Idle and live, the button at `q` (vectors Z1, Z2). -/
def idle (q : Bool) : Regs := ⟨.idle, 0#7, 0x00#8, false, false, true, false, 0#16, q⟩

/-- Inert (vector Z3). -/
def inert (q : Bool) : Regs := ⟨.idle, 0#7, 0x00#8, true, false, false, false, 0#16, q⟩

/-- One clock edge without reset, button up. -/
def up : Pins := ⟨false, true⟩

/-- One clock edge without reset, button down. -/
def down : Pins := ⟨false, false⟩

/-- The registers an answer leaves, when it is a next state. -/
def regsOf : Result → Option Regs
  | .next s => some s.regs
  | .fault _ => none
  | .refused _ => none

/-- The reason an answer is refused, when it is. -/
def refusalOf : Result → Option Refusal
  | .next _ => none
  | .fault _ => none
  | .refused r => some r

/-! ### Well-formedness refuses what no encoding admits -/

theorem test_wellFormed_pauseA_offset3 : wellFormed (.pauseA 3#2 0#3) = false := by decide
theorem test_wellFormed_windowA_offset3 : wellFormed (.windowA 3#2 1#3) = false := by decide
theorem test_wellFormed_pauseB_offset3 : wellFormed (.pauseB 3#2 2#3) = false := by decide
theorem test_wellFormed_windowB_offset3 : wellFormed (.windowB 3#2 7#3) = false := by decide
theorem test_wellFormed_rsvdStep_96_97 : wellFormed (.rsvdStep 0#5) = false ∧ wellFormed (.rsvdStep 1#5) = false := by decide
theorem test_wellFormed_armShort_99 : wellFormed (.armShort 49#6) = false ∧ wellFormed (.armShort 48#6) = true := by decide
theorem test_wellFormed_armLong_98 : wellFormed (.armLong 49#6) = false ∧ wellFormed (.armLong 48#6) = true := by decide
theorem test_wellFormed_count_1 : wellFormed (.count 1#16) = false ∧ wellFormed (.count 2#16) = true := by decide

/-! ### Decoding: the word of each row, written out bit by bit -/

/-- `oorrr00`, o = 2, r = 6: step 88. -/
theorem test_decode_pauseA : decode .step [0b01011000#8] = .ok [.pauseA 2#2 6#3] := by decide
/-- `oorrr01`, o = 0, r = 2: step 9 (R122's example). -/
theorem test_decode_windowA : decode .step [0b00001001#8] = .ok [.windowA 0#2 2#3] := by decide
/-- `oorrr10`, o = 0, r = 2: step 10 (R123's example). -/
theorem test_decode_pauseB : decode .step [0b00001010#8] = .ok [.pauseB 0#2 2#3] := by decide
/-- `oorrr11`, o = 1, r = 3: step 47 (vector X5). -/
theorem test_decode_windowB : decode .step [0b00101111#8] = .ok [.windowB 1#2 3#3] := by decide
/-- `1100000`: step 96. -/
theorem test_decode_blank : decode .step [0b01100000#8] = .ok [.blank] := by decide
/-- `1100001`: step 97. -/
theorem test_decode_boundary : decode .step [0b01100001#8] = .ok [.boundary] := by decide
/-- `11xxxxx`: 98 and 127 (vectors H15, H16). -/
theorem test_decode_rsvdStep : decode .step [0b01100010#8] = .ok [.rsvdStep 2#5] ∧
    decode .step [0b01111111#8] = .ok [.rsvdStep 31#5] := by decide
/-- `t10`, t = 0. -/
theorem test_decode_press : decode .event [0b00000010#8] = .ok [.press false] := by decide
/-- `t01`, t = 0. -/
theorem test_decode_release : decode .event [0b00000001#8] = .ok [.release false] := by decide
/-- `1qn`: q = n = 1 alone; q = 0, n = 1 with the Release after it (R80). -/
theorem test_decode_tick : decode .event [0b00000111#8] = .ok [.tick true true] ∧
    decode .event [0b00000101#8] = .ok [.tick false true, .release true] := by decide
/-- `0qq`, q = 1. -/
theorem test_decode_noevent : decode .event [0b00000011#8] = .ok [.noevent true] := by decide
/-- `qn`, q = 0, n = 1. -/
theorem test_decode_sample : decode .button [0b00000001#8] = .ok [.sample false true] := by decide
/-- `pppppp1`: step 97 arms short (R73). -/
theorem test_decode_armShort : decode .arm [0b01100001#8] = .ok [.armShort 48#6] := by decide
/-- `pppppp0`: step 96 arms long (R73). -/
theorem test_decode_armLong : decode .arm [0b01100000#8] = .ok [.armLong 48#6] := by decide
/-- `1cccccccccccccccc`, c = 2, the least count. -/
theorem test_decode_count : decode .timer [0x02#8, 0x00#8, 0x01#8] = .ok [.count 2#16] := by decide
/-- `10000000000000001`. -/
theorem test_decode_expire : decode .timer [0x01#8, 0x00#8, 0x01#8] = .ok [.expire] := by decide
/-- `0cccccccccccccccc`, c = 0. -/
theorem test_decode_hold : decode .timer [0x00#8, 0x00#8, 0x00#8] = .ok [.hold 0#16] := by decide
/-- `0`. -/
theorem test_decode_cycle : decode .resetLine [0x00#8] = .ok [.cycle] := by decide
/-- `1`. -/
theorem test_decode_reset : decode .resetLine [0x01#8] = .ok [.reset] := by decide
/-- `00`. -/
theorem test_decode_wait : decode .mode [0x00#8] = .ok [.wait] := by decide

/-- Words that name no operation are rejected, each by its own name (R84, R87). -/
theorem test_decode_rejects : decode .step [] = .error .wrongLength ∧ decode .step [0x80#8] = .error .strayBits ∧
    decode .event [0x08#8] = .error .strayBits ∧ decode .timer [0x00#8, 0x00#8, 0x02#8] = .error .strayBits ∧
    decode .arm [0x62#8] = .error .reservedPhase ∧ decode .mode [0x03#8] = .error .reservedMode ∧
    decode .mode [0x01#8] = .error .notWaiting := by decide

/-- Encoding gives the words back. -/
theorem test_encode_words : encode (.windowB 1#2 3#3) = [0b00101111#8] ∧ encode (.press true) = [0b00000110#8] ∧
    encode (.count 2000#16) = [0xD0#8, 0x07#8, 0x01#8] ∧ encode (.armShort 48#6) = [0b01100001#8] := by decide

/-- A bare table word of a byte is a step index, one of 17 bits the timer pair (log 6). -/
theorem test_tableWord : decodeTableWord 7 0x60 = some .blank ∧ decodeTableWord 8 0x62 = some (.rsvdStep 2#5) ∧
    decodeTableWord 17 0x10001 = some .expire ∧ decodeTableWord 24 0x102 = some (.hold 0x102#16) ∧
    decodeTableWord 8 0x80 = none := by decide

/-- The step that `withFetchWord` sets up runs the word's operation: WINDOW_A at step 1 pulses for a 0 bit. -/
theorem test_withFetchWord_windowA :
    (regsOf (step (State.reset.withFetchWord 8 0x01))).map (fun r => (r.mode, r.phase, r.led, r.rf)) =
      some (.transmitting, 2#7, false, true) := by rfl

/-- The same for a timer pair: COUNT of 2000 leaves 1999. -/
theorem test_withFetchWord_count :
    (regsOf (step (State.reset.withFetchWord 17 0x107D0))).map (fun r => (r.tmrRun, r.tmrCnt)) =
      some (true, 1999#16) := by rfl

/-- A reserved step index placed so is refused by name. -/
theorem test_withFetchWord_reserved :
    refusalOf (step (State.reset.withFetchWord 8 0x63)) = some (.reservedStep 3#5) := by rfl

/-! ### Phase steps, vectors H1 to H16 (`T_SHORT = 1`, so SHORT is 1 and LONG is 2) -/

theorem test_pauseA_H3 : regsOf (exec (.pauseA 1#2 0#3) (st (at_ .transmitting 32#7 0xC9#8 false true))) =
    some ⟨.transmitting, 33#7, 0x17#8, true, false, true, true, 2#16, false⟩ := by decide
theorem test_pauseA_H2 : regsOf (exec (.pauseA 0#2 1#3) (st (at_ .transmitting 4#7 0xC9#8 false true))) =
    some ⟨.transmitting, 5#7, 0xC9#8, true, false, true, true, 2#16, false⟩ := by decide
theorem test_windowA_H5 : regsOf (exec (.windowA 0#2 0#3) (st (at_ .transmitting 1#7 0xC9#8 true false))) =
    some ⟨.transmitting, 2#7, 0xC9#8, true, false, true, true, 1#16, false⟩ := by decide
theorem test_windowA_H6 : regsOf (exec (.windowA 0#2 2#3) (st (at_ .transmitting 9#7 0xC9#8 true false))) =
    some ⟨.transmitting, 10#7, 0xC9#8, false, true, true, true, 1#16, false⟩ := by decide
theorem test_pauseB_H7 : regsOf (exec (.pauseB 0#2 2#3) (st (at_ .transmitting 10#7 0xC9#8 false true))) =
    some ⟨.transmitting, 11#7, 0xC9#8, true, false, true, true, 2#16, false⟩ := by decide
theorem test_windowB_H9 : regsOf (exec (.windowB 0#2 0#3) (st (at_ .transmitting 3#7 0xC9#8 true false))) =
    some ⟨.transmitting, 4#7, 0xC9#8, false, true, true, true, 1#16, false⟩ := by decide
theorem test_windowB_H10 : regsOf (exec (.windowB 0#2 2#3) (st (at_ .transmitting 11#7 0xC9#8 true false))) =
    some ⟨.transmitting, 12#7, 0xC9#8, true, false, true, true, 1#16, false⟩ := by decide
theorem test_blank_H12 : regsOf (exec .blank (st (at_ .transmitting 96#7 0xFF#8 false true))) =
    some ⟨.transmitting, 97#7, 0xFF#8, true, false, true, true, 2#16, false⟩ := by decide
theorem test_boundary_H13 : regsOf (exec .boundary (st (at_ .transmitting 97#7 0xC2#8 true false))) =
    some ⟨.transmitting, 0#7, 0xC2#8, true, false, true, true, 1#16, false⟩ := by decide
/-- H14, in the cycle in which EXPIRE has stopped the timer. -/
theorem test_boundary_H14 :
    regsOf (exec .boundary (st ⟨.finishing, 97#7, 0xC2#8, true, false, true, false, 0#16, true⟩)) =
      some ⟨.idle, 0#7, 0xC2#8, false, false, true, false, 0#16, true⟩ := by decide
theorem test_rsvdStep_H16 :
    refusalOf (exec (.rsvdStep 31#5) (st (at_ .transmitting 127#7 0xC2#8 true false))) = some (.reservedStep 31#5) := by decide

/-! ### Engine events, vectors E1 to E12 -/

theorem test_press_E1 : regsOf (exec (.press false) (st (idle true))) =
    some ⟨.transmitting, 1#7, 0xC9#8, true, false, true, true, 2#16, true⟩ := by decide
theorem test_press_E5 : regsOf (exec (.press false) (st (at_ .finishing 43#7 0x17#8 true false))) =
    some (at_ .finishing 43#7 0x17#8 true false) := by decide
theorem test_release_E4 : regsOf (exec (.release false) (st (at_ .transmitting 43#7 0x17#8 true false))) =
    some (at_ .finishing 43#7 0x17#8 true false) := by decide
theorem test_release_E6 : regsOf (exec (.release false) (st (at_ .finishing 43#7 0x17#8 true false))) =
    some (at_ .finishing 43#7 0x17#8 true false) := by decide
theorem test_tick_E8 : regsOf (exec (.tick false false) (st (at_ .finishing 9#7 0xC9#8 true false))) =
    some (at_ .finishing 10#7 0xC9#8 false true) := by decide
theorem test_tick_E10 : regsOf (exec (.tick false false) (st (at_ .transmitting 0#7 0xC2#8 true false))) =
    some ⟨.transmitting, 1#7, 0xC9#8, true, false, true, true, 2#16, false⟩ := by decide
theorem test_noevent_Y9 : regsOf (exec (.noevent false) (st (at_ .transmitting 7#7 0xC9#8 true false))) =
    some (at_ .transmitting 7#7 0xC9#8 true false) := by decide

/-! ### Input monitor I2, I4; tick generator T1 to T8 -/

theorem test_sample_I2 : (regsOf (exec (.sample true false) (st (idle true)))).map Regs.btnQ = some false := by decide
theorem test_sample_I4 : (regsOf (exec (.sample false true) (st (idle false)))).map Regs.btnQ = some true := by decide
/-- R151's example: `T_SHORT = 1000`. -/
theorem test_armShort_1000 : (regsOf (exec (.armShort 0#6) (st (idle true) [] ref 999))).map (fun r => (r.tmrRun, r.tmrCnt)) =
    some (true, 1000#16) := by decide
/-- R152's example, and the longest interval of R9: `2 * 32767` fits the counter (R78 item 5). -/
theorem test_armLong_2000 : (regsOf (exec (.armLong 0#6) (st (idle true) [] ref 999))).map (fun r => (r.tmrRun, r.tmrCnt)) =
    some (true, 2000#16) := by decide
/-- S9: at 1 MHz and `T_SHORT = 1000` the intervals are 1 ms and 2 ms. -/
theorem test_intervalMs_S9 : intervalMs (st (idle true) [] ref 999).cfg .short = 1 ∧
    intervalMs (st (idle true) [] ref 999).cfg .long = 2 := by
  norm_num [intervalMs, intervalCycles, tShort, tLong, st, megahertz]
theorem test_armLong_longest : (regsOf (exec (.armLong 0#6) (st (idle true) [] ref 32766))).map Regs.tmrCnt =
    some 65534#16 := by decide
theorem test_count_T3 :
    (regsOf (exec (.count 2000#16) (st { idle true with tmrRun := true, tmrCnt := 2000#16 }))).map
      (fun r => (r.tmrRun, r.tmrCnt)) = some (true, 1999#16) := by decide
theorem test_expire_T4 :
    (regsOf (exec .expire (st { idle true with tmrRun := true, tmrCnt := 1#16 }))).map (fun r => (r.tmrRun, r.tmrCnt)) =
      some (false, 0#16) := by decide
theorem test_hold_T1 : regsOf (exec (.hold 0#16) (st (idle true))) = some (idle true) := by decide
/-- T8: the unreachable pair is stopped (log 8). -/
theorem test_hold_T8 :
    (regsOf (exec (.hold 0#16) (st { idle true with tmrRun := true }))).map (fun r => (r.tmrRun, r.tmrCnt)) =
      some (false, 0#16) := by decide

/-! ### Scheduler Y2, Y4; reset Z3, Z4; wait -/

theorem test_cycle_Y2 : regsOf (exec .cycle (st (at_ .transmitting 97#7 0xC2#8 true false) [up])) =
    some ⟨.finishing, 0#7, 0xC2#8, true, false, true, true, 1#16, true⟩ := by decide
theorem test_cycle_Y4 : regsOf (exec .cycle (st (at_ .finishing 97#7 0xC2#8 true false true) [down])) =
    some ⟨.transmitting, 1#7, 0xC9#8, true, false, true, true, 2#16, false⟩ := by decide
theorem test_reset_Z3 : regsOf (exec .reset (st (idle true) [⟨true, true⟩] (Memory.ofBytes 0x49#8 [0x17#8, 0xC2#8, 0x00#8]))) =
    some (inert true) := by decide
theorem test_reset_Z4 : regsOf (exec .reset (st (at_ .transmitting 10#7 0xC9#8 false true) [⟨true, true⟩])) =
    some (idle true) := by decide
theorem test_wait_Z1 : regsOf (exec .wait (st (idle true))) = some (idle true) := by decide

/-! ### The Code Store, vectors M1, M6, M7 and the fetch beyond it (M8) -/

theorem test_store_M1 : ref = Memory.reference ∧ ref.valid = true ∧ ref.megacode = some 0xC917C2#24 ∧
    ref.wellFormedStore = true ∧ ref.wf = true := by decide
theorem test_store_M6 : (Memory.ofBytes 0xFF#8 [0xFF#8, 0xFF#8, 0xFF#8]).valid = true ∧
    (Memory.ofBytes 0xFF#8 [0xFF#8, 0xFF#8, 0xFF#8]).wellFormedStore = false := by decide
theorem test_store_M7 :
    (Memory.ofBytes 0xC9#8 [0x17#8, 0xC2#8, 0xD5#8, 0x00#8, 0x01#8, 0x00#8]).megacode = some 0xC917C2#24 := by decide
theorem test_fetch_M8 :
    refusalOf (exec (.pauseA 1#2 0#3) (st (at_ .transmitting 32#7 0x80#8 true false) [] short)) = some (.codeStoreRead 1) := by decide
/-- The port at a fetch (R40): step 32 drives offset 1; a cycle without a fetch drives nothing the spec names. -/
theorem test_csAddr : (st (at_ .transmitting 32#7 0xC9#8 true false) [down]).csAddr = some 1#2 ∧
    (st (at_ .transmitting 33#7 0x17#8 true false) [down]).csAddr = none := by decide

/-! ### Every statement's hypotheses are met, clause by clause -/

/-- Live and Idle, the invariants hold with either button level. -/
theorem inv_idle (q : Bool) (stim : List Pins) : Inv (st (idle q) stim) := by
  refine ⟨?_, ?_, ?_, ?_, ?_, ?_, ?_, ?_, ?_, ?_⟩ <;> simp [OutputsExclusive, st, idle]

/-- So they do in the pulse of a 1 bit, at the end of a byte group, -/
theorem inv_pulse (stim : List Pins) : Inv (st (at_ .transmitting 32#7 0xC9#8 false true) stim) := by
  refine ⟨?_, ?_, ?_, ?_, ?_, ?_, ?_, ?_, ?_, ?_⟩ <;> simp [OutputsExclusive, st, at_, tShort, tLong]

/-- and in an inert block. -/
theorem inv_inert (q : Bool) (stim : List Pins) : Inv (st (inert q) stim) := by
  refine ⟨?_, ?_, ?_, ?_, ?_, ?_, ?_, ?_, ?_, ?_⟩ <;> simp [OutputsExclusive, st, inert]

/-- What selects each step and handler, at both ends of its range. -/
theorem witness_Selection :
    ((0#7 : Phase).toNat ≤ 95 ∧ (0#7 : Phase).extractLsb' 0 2 = 0#2) ∧
    ((92#7 : Phase).toNat ≤ 95 ∧ (92#7 : Phase).extractLsb' 0 2 = 0#2) ∧
    ((1#7 : Phase).toNat ≤ 95 ∧ (1#7 : Phase).extractLsb' 0 2 = 1#2) ∧
    ((94#7 : Phase).toNat ≤ 95 ∧ (94#7 : Phase).extractLsb' 0 2 = 2#2) ∧
    ((95#7 : Phase).toNat ≤ 95 ∧ (95#7 : Phase).extractLsb' 0 2 = 3#2) ∧
    98#7 ≤ (98#7 : Phase) ∧ 98#7 ≤ (127#7 : Phase) ∧
    (0b110#3 : BitVec 3).extractLsb' 0 2 = 0b10#2 ∧ (0b001#3 : BitVec 3).extractLsb' 0 2 = 0b01#2 ∧
    (0b100#3 : BitVec 3).getLsbD 2 = true := by decide

theorem witness_PauseA : (1#3 : BitVec 3) ≠ 0#3 ∧ (st (idle true)).cfg.cs.read (2#2 : BitVec 2).toNat = some 0xC2#8 ∧
    (st (idle true) [] short).cfg.cs.read (1#2 : BitVec 2).toNat = none := by decide

theorem witness_WindowA : (at_ .transmitting 1#7 0xC9#8 true false).curByte.getLsbD (7 - (2#3 : BitVec 3).toNat) = false ∧
    (at_ .transmitting 1#7 0xC9#8 true false).curByte.getLsbD (7 - (0#3 : BitVec 3).toNat) = true := by decide

theorem witness_WindowB : (at_ .transmitting 3#7 0xC9#8 true false).curByte.getLsbD (7 - (7#3 : BitVec 3).toNat) = true ∧
    (at_ .transmitting 3#7 0xC9#8 true false).curByte.getLsbD (7 - (6#3 : BitVec 3).toNat) = false := by decide

theorem witness_Boundary : (st (at_ .finishing 97#7 0xC2#8 true false)).regs.mode = .finishing ∧
    (st (at_ .transmitting 97#7 0xC2#8 true false)).regs.mode ≠ .finishing := by decide

theorem witness_Press : (st (idle true)).regs.mode = .idle ∧
    (st (at_ .finishing 43#7 0x17#8 true false)).regs.mode ≠ .idle := by decide

theorem witness_Release : (st (at_ .transmitting 43#7 0x17#8 true false)).regs.mode = .transmitting ∧
    (st (idle true)).regs.mode ≠ .transmitting := by decide

theorem witness_Tick : (st (at_ .transmitting 97#7 0xC2#8 true false)).regs.mode ≠ .idle ∧
    (st (idle true)).regs.mode = .idle := by decide

/-- Both ends of the step index's range, each with a sendable store. -/
theorem witness_TickCompletes :
    ((st (at_ .transmitting 97#7 0xC2#8 true false)).regs.mode ≠ .idle ∧ (97#7 : Phase).toNat ≤ 97 ∧ Sendable ref) ∧
    ((st (at_ .finishing 0#7 0xC2#8 true false)).regs.mode ≠ .idle ∧ (0#7 : Phase).toNat ≤ 97 ∧ Sendable ref) := by
  unfold Sendable; decide

theorem witness_ModeTransitions :
    (∃ t, exec (.press false) (st (idle true)) = .next t) ∧
    (∃ t, exec (.release false) (st (at_ .transmitting 43#7 0x17#8 true false)) = .next t) ∧
    (∃ t, exec (.tick false false) (st (at_ .finishing 97#7 0xC2#8 true false)) = .next t) ∧
    (∃ t, exec (.tick false false) (st (at_ .transmitting 97#7 0xC2#8 true false)) = .next t) :=
  ⟨⟨_, rfl⟩, ⟨_, rfl⟩, ⟨_, rfl⟩, ⟨_, rfl⟩⟩

theorem witness_CountExpireHold :
    ¬ ((idle true).tmrRun = true ∧ (idle true).tmrCnt = 0#16) ∧
    (({ idle true with tmrRun := true } : Regs).tmrRun = true ∧ ({ idle true with tmrRun := true } : Regs).tmrCnt = 0#16) := by
  decide

/-- An even step, an odd step, a continuing boundary, and a stopping one. -/
theorem witness_StepParity :
    (∃ t, exec (decodePhase 96#7) (st (at_ .transmitting 96#7 0xC2#8 true false)) = .next t) ∧
    (∃ t, exec (decodePhase 95#7) (st (at_ .transmitting 95#7 0xC2#8 true false)) = .next t) ∧
    (∃ t, exec (decodePhase 97#7) (st (at_ .transmitting 97#7 0xC2#8 true false)) = .next t) ∧
    (∃ t, exec (decodePhase 97#7) (st (at_ .finishing 97#7 0xC2#8 true false)) = .next t) :=
  ⟨⟨_, rfl⟩, ⟨_, rfl⟩, ⟨_, rfl⟩, ⟨_, rfl⟩⟩

/-- A count of 4 seen after 0 and after 3 cycles, with a Release and a Press on the way. -/
def counting : State := st { at_ .transmitting 1#7 0xC9#8 true false with tmrCnt := 4#16 } [up, down, up] ref 1

theorem witness_TickComes : counting.regs.mode ≠ .idle ∧ counting.regs.gie = true ∧ counting.regs.tmrRun = true ∧
    counting.regs.tmrCnt.toNat = 4 ∧ 0 < 4 ∧ NoReset counting 0 ∧ 3 < 4 ∧ NoReset counting 3 := by
  unfold NoReset; decide

theorem witness_Reset : (st (idle true) [⟨true, false⟩]).pins.rst = true ∧
    (ref.read 0 = some 0xC9#8 ∧ (0xC9#8 : Byte).getLsbD 7 = true) ∧
    ((Memory.ofBytes 0x00#8 []).read 0 = some 0x00#8 ∧ (0x00#8 : Byte).getLsbD 7 = false) := by decide

theorem witness_FaultRaised : (∃ t, exec .reset (st (inert true) [⟨true, true⟩]) = .next t) ∧
    (∃ t, exec .reset (st (idle true) [⟨true, true⟩] (Memory.ofBytes 0x00#8 [])) = .next t) ∧
    (∃ t, exec .cycle (st (inert true) [down]) = .next t) :=
  ⟨⟨_, rfl⟩, ⟨_, rfl⟩, ⟨_, rfl⟩⟩

/-- The live state after reset and one in mid-pulse both meet the invariants, with a sendable store. -/
theorem witness_Inv : Inv (st (idle true) [down]) ∧ Inv (st (at_ .transmitting 32#7 0xC9#8 false true) [up]) ∧
    Inv (st (inert false) [up]) ∧ Sendable ref := ⟨inv_idle _ _, inv_pulse _, inv_inert _ _, by unfold Sendable; decide⟩

theorem witness_InertCycle : (st (inert true) [down]).regs.gie = false ∧ (st (inert true) [down]).regs.tmrRun = false := by decide

/-- The states of vectors Y2 and Y4 meet R169 items 1 and 3. -/
theorem witness_BoundaryCorners :
    ((at_ .transmitting 97#7 0xC2#8 true false).gie = true ∧ (at_ .transmitting 97#7 0xC2#8 true false).mode = .transmitting ∧
      (at_ .transmitting 97#7 0xC2#8 true false).tmrRun = true ∧ (at_ .transmitting 97#7 0xC2#8 true false).tmrCnt = 1#16 ∧
      (st (at_ .transmitting 97#7 0xC2#8 true false) [up]).regs.btnQ = false ∧
      (st (at_ .transmitting 97#7 0xC2#8 true false) [up]).pins.btnN = true) ∧
    ((at_ .finishing 97#7 0xC2#8 true false true).mode = .finishing ∧
      (st (at_ .finishing 97#7 0xC2#8 true false true) [down]).regs.btnQ = true ∧
      (st (at_ .finishing 97#7 0xC2#8 true false true) [down]).pins.btnN = false ∧ ref.read 0 = some 0xC9#8) := by decide

/-- Vector Y7, a Press in the blank of a Finishing frame, and one in the cycle of a Transmitting frame's boundary. -/
theorem witness_PressInAFrame :
    (∀ r ∈ [at_ .finishing 1#7 0xC9#8 true false true, { at_ .finishing 97#7 0xC2#8 true false true with tmrCnt := 2#16 },
        at_ .transmitting 97#7 0xC2#8 true false true],
      r.gie = true ∧ r.mode ≠ .idle ∧ ¬ (r.mode = .finishing ∧ r.phase = 97#7 ∧ (st r [down]).tickNow = true) ∧
      (st r [down]).regs.btnQ = true ∧ (st r [down]).pins.btnN = false) := by decide

/-- Both levels of `rst`; the operation completes, and a refused one exists. -/
theorem witness_StepRuns :
    (st (idle true) [down]).pins.rst = false ∧ (st (idle true) [⟨true, true⟩]).pins.rst = true ∧
    decode .resetLine [0x00#8] = .ok [.cycle] ∧ decode .resetLine [0x01#8] = .ok [.reset] ∧
    (∃ t, exec .cycle (st (idle true) [down]) = .next t) ∧
    (∃ r, exec .cycle (st (at_ .transmitting 98#7 0xC2#8 true false) [down]) = .refused r) :=
  ⟨rfl, rfl, by decide, by decide, ⟨_, rfl⟩, ⟨_, rfl⟩⟩

/-- The frames speak of operations that complete, and of registers not written. -/
theorem witness_Frames : (∃ t, exec .cycle (st (idle true) [down]) = .next t) ∧ Register.gie ∉ writes .cycle ∧
    (∃ t, exec .reset (st (idle true) [down]) = .next t) ∧ Register.mode ∉ writes (.windowA 0#2 0#3) :=
  ⟨⟨_, rfl⟩, by decide, ⟨_, rfl⟩, by decide⟩

/-- A step with a listed input, and one whose input is free (reached with the timer stopped, an inert block and any
level of the free inputs: the edge is then a reset or an inert cycle). -/
theorem witness_StepUsesOneInput : (∃ t, step (st (idle true) [down]) = .next t) ∧
    (∃ t, step (st (inert true)) = .next t) := by
  refine ⟨⟨_, rfl⟩, ?_⟩
  have h : ∀ a, a = Config.freeRst 0 → ∃ t, step (st (inert true)) = .next t := by
    intro a ha
    unfold step State.pins st
    simp only [← ha]
    cases a <;> exact ⟨_, rfl⟩
  exact h _ rfl

/-- Both ways to be refused are met, at both ends of their ranges; so are the hypotheses of the last two clauses. -/
theorem witness_StepStops : (∃ r, step (st (at_ .finishing 98#7 0xC2#8 true false) [down]) = .refused r) ∧
    (∃ r, step (st (at_ .finishing 127#7 0xC2#8 true false) [down]) = .refused r) ∧
    (∃ r, step (st (at_ .transmitting 32#7 0x80#8 true false) [down] short) = .refused r) ∧
    (∃ r, step (st (at_ .transmitting 64#7 0x80#8 true false) [down] short) = .refused r) ∧
    (st (at_ .finishing 98#7 0xC2#8 true false) [down]).tickNow = true ∧
    (st (at_ .finishing 98#7 0xC2#8 true false) [⟨true, true⟩]).pins.rst = true :=
  ⟨⟨_, rfl⟩, ⟨_, rfl⟩, ⟨_, rfl⟩, ⟨_, rfl⟩, rfl, rfl⟩

theorem witness_StepKeepsTheInvariants : Inv (st (idle true) [down]) ∧ (∃ t, step (st (idle true) [down]) = .next t) :=
  ⟨inv_idle _ _, ⟨_, rfl⟩⟩

theorem witness_ResetEdge : (st (at_ .transmitting 10#7 0xC9#8 false true) [⟨true, false⟩]).pins.rst = true ∧
    (∃ t, step (st (at_ .transmitting 10#7 0xC9#8 false true) [⟨true, false⟩]) = .next t) := ⟨rfl, ⟨_, rfl⟩⟩

/-- At the last step of a byte group the byte in hand is the group's; the next edge fetches. -/
theorem witness_HoldsByte : Inv (st (at_ .transmitting 32#7 0xC9#8 false true) [down]) ∧
    HoldsByte (st (at_ .transmitting 32#7 0xC9#8 false true) [down]) ∧
    (∃ t, step (st (at_ .transmitting 32#7 0xC9#8 false true) [down]) = .next t) := ⟨inv_pulse _, fun _ => rfl, ⟨_, rfl⟩⟩

theorem witness_GieRecordsValidity : GieRecordsValidity (st (idle true) [down]) ∧
    GieRecordsValidity (st (inert true) [down] (Memory.ofBytes 0x7F#8 [0xFF#8, 0xFF#8, 0x00#8])) ∧
    (∃ t, step (st (idle true) [down]) = .next t) := by
  unfold GieRecordsValidity
  exact ⟨by decide, by decide, ⟨_, rfl⟩⟩

/-- Vector M4's store at a reset edge with the button down, then three cycles. -/
theorem witness_InvalidStore :
    (st (idle true) [⟨true, false⟩, up, down, up] (Memory.ofBytes 0x7F#8 [0xFF#8, 0xFF#8, 0x00#8])).pins.rst = true ∧
    (Memory.ofBytes 0x7F#8 [0xFF#8, 0xFF#8, 0x00#8]).read 0 = some 0x7F#8 ∧ (0x7F#8 : Byte).getLsbD 7 = false ∧
    step (st (idle true) [⟨true, false⟩, up, down, up] (Memory.ofBytes 0x7F#8 [0xFF#8, 0xFF#8, 0x00#8])) =
      .next (st (inert false) [up, down, up] (Memory.ofBytes 0x7F#8 [0xFF#8, 0xFF#8, 0x00#8])) ∧
    NoReset (st (inert false) [up, down, up] (Memory.ofBytes 0x7F#8 [0xFF#8, 0xFF#8, 0x00#8])) 3 :=
  ⟨rfl, by decide, by decide, rfl, by unfold NoReset; decide⟩

theorem witness_InertForEver : Inv (st (inert true) [down, up, down]) ∧ Inert (st (inert true) [down, up, down]) ∧
    NoReset (st (inert true) [down, up, down]) 3 :=
  ⟨inv_inert _ _, by unfold Inert; decide, by unfold NoReset; decide⟩

theorem witness_Quiescent : (st (idle true) [up]).regs.gie = true ∧ (st (idle true) [up]).regs.mode = .idle ∧
    (st (idle true) [up]).regs.tmrRun = false ∧ (st (idle true) [up]).pins.rst = false ∧
    (st (idle true) [up]).pins.btnN = (st (idle true) [up]).regs.btnQ := by decide

/-- A button held down through reset and for two cycles after it. -/
theorem witness_ButtonHeld : (st (idle true) [⟨true, false⟩, down, down]).pins.rst = true ∧
    step (st (idle true) [⟨true, false⟩, down, down]) = .next (st (idle false) [down, down]) ∧
    NoReset (st (idle false) [down, down]) 2 ∧
    (∀ p ∈ (st (idle false) [down, down]).stim.take 2, p.btnN = (st (idle true) [⟨true, false⟩, down, down]).pins.btnN) :=
  ⟨rfl, rfl, by unfold NoReset; decide, by decide⟩

/-- Transmitting with the button down and Finishing with it up, one of them seeing a Release. -/
theorem witness_ButtonCannotDisturb :
    (at_ .transmitting 41#7 0x17#8 true false false).mode ≠ .idle ∧ (at_ .finishing 41#7 0x17#8 true false true).mode ≠ .idle ∧
    (at_ .transmitting 41#7 0x17#8 true false false).phase ≠ 97#7 ∧
    at_ .finishing 41#7 0x17#8 true false true = { at_ .transmitting 41#7 0x17#8 true false false with mode := .finishing, btnQ := true } ∧
    (∃ t, exec .cycle (st (at_ .transmitting 41#7 0x17#8 true false false) [up]) = .next t) ∧
    (∃ t, exec .cycle (st (at_ .finishing 41#7 0x17#8 true false true) [down]) = .next t) :=
  ⟨by decide, by decide, by decide, rfl, ⟨_, rfl⟩, ⟨_, rfl⟩⟩

/-- The registers step 0 of a frame leaves, `T_SHORT = 1`. -/
def afterStep0 (m : Mode) (q : Bool) : Regs := ⟨m, 1#7, 0xC9#8, true, false, true, true, 2#16, q⟩

theorem frameStarted_of (m : Mode) (q : Bool) (stim : List Pins) (hm : m = .transmitting ∧ q = false ∨ m = .finishing) :
    FrameStarted (st (afterStep0 m q) stim) := by
  refine ⟨?_, ?_, rfl, rfl, rfl⟩
  · refine ⟨?_, ?_, ?_, ?_, ?_, ?_, ?_, ?_, ?_, ?_⟩ <;>
      rcases hm with ⟨rfl, rfl⟩ | rfl <;> simp [OutputsExclusive, st, afterStep0, tShort, tLong]
  · rcases hm with ⟨rfl, -⟩ | rfl <;> simp [st, afterStep0]

/-- Step 0 of a frame that may repeat has just run, and the levels of the edges to come are listed. -/
def frame (stim : List Pins) : State := st (afterStep0 .transmitting false) stim

theorem frameStarted_frame (stim : List Pins) : FrameStarted (frame stim) := frameStarted_of _ _ _ (.inl ⟨rfl, rfl⟩)

/-- The button held down for two frame periods. -/
def held : State := frame (List.replicate 294 down)

/-- The earliest Release, at edge 0. -/
def tapped : State := frame (List.replicate 147 up)

/-- The latest Release that stops at this boundary, at edge 144, the one before the boundary's. -/
def latest : State := frame (List.replicate 144 down ++ [up, up, up])

/-- A Release in the cycle of the boundary, edge 145, the button up from then on. -/
def atBoundary : State := frame (List.replicate 145 down ++ List.replicate 148 up)

/-- A Release at the end of the turnaround, edge 146, the cycle of the next step 0. -/
def atTurnaroundEnd : State := frame (List.replicate 146 down ++ List.replicate 147 up)

/-- A Release at edge 144 and a Press at edge 145, the cycle of the boundary. -/
def again : State := frame (List.replicate 144 down ++ [up, down])

theorem witness_FrameStarted : FrameStarted held ∧ FrameStarted (st (afterStep0 .finishing true) [down]) ∧
    FrameStarted (st (afterStep0 .finishing false) [down]) ∧ Sendable ref ∧ held.regs.mode = .transmitting :=
  ⟨frameStarted_frame _, frameStarted_of _ _ _ (.inr rfl), frameStarted_of _ _ _ (.inr rfl),
    by unfold Sendable; decide, rfl⟩

/-- A Press in Idle; the last cycle of a turnaround, with and without a Release. -/
theorem witness_StepZero : PressComing (st (idle true) [down]) ∧
    (∀ p ∈ [up, down], Inv (st (at_ .transmitting 0#7 0xC2#8 true false) [p]) ∧
      (st (at_ .transmitting 0#7 0xC2#8 true false) [p]).regs.mode ≠ .idle ∧
      (st (at_ .transmitting 0#7 0xC2#8 true false) [p]).regs.phase = 0#7 ∧
      (st (at_ .transmitting 0#7 0xC2#8 true false) [p]).regs.tmrCnt = 1#16 ∧
      (st (at_ .transmitting 0#7 0xC2#8 true false) [p]).pins.rst = false) := by
  refine ⟨by unfold PressComing; decide, fun p hp => ⟨?_, by simp [st, at_], rfl, rfl, ?_⟩⟩
  · refine ⟨?_, ?_, ?_, ?_, ?_, ?_, ?_, ?_, ?_, ?_⟩ <;> simp [OutputsExclusive, st, at_, tShort, tLong]
  · simp only [List.mem_cons, List.not_mem_nil, or_false] at hp
    rcases hp with rfl | rfl <;> rfl

theorem noReset_of_all {s : State} {n : Nat} (hl : n ≤ s.stim.length) (h : s.stim.all (fun p => !p.rst) = true) :
    NoReset s n := by
  refine ⟨hl, fun p hp => ?_⟩
  have := List.all_eq_true.1 h p (List.mem_of_mem_take hp)
  simpa using this

/-- A run of the held button's inputs has no reset, up to two frame periods. -/
theorem noReset_held {n : Nat} (h : n ≤ 294) : NoReset held n :=
  noReset_of_all (by simpa [-List.reduceReplicate, held, frame, st] using h) (by simp [-List.reduceReplicate, held, frame, st, down])

theorem listed_held {k : Nat} (h : k < 294) : listedButton held k = false := by
  simp [-List.reduceReplicate, listedButton, held, frame, st, down, h]

/-- The bounds at both ends: steps 0 and 96, cycles 0 and 145 of a frame, none and two repetitions. -/
theorem witness_FrameRanges : NoReset held (stepStart 0 * tShort held.cfg) ∧ NoReset held (stepStart 96 * tShort held.cfg) ∧
    held.cfg.cs.megacode = some 0xC917C2#24 ∧ (0 < frameCycles held.cfg ∧ NoReset held 0) ∧
    (145 < frameCycles held.cfg ∧ NoReset held 145) ∧ NoReset held (0 * periodCycles held.cfg) ∧
    (NoReset held (2 * periodCycles held.cfg) ∧ ∀ k, k < 2 * periodCycles held.cfg → listedButton held k = false) :=
  ⟨noReset_held (by decide), noReset_held (by decide), by decide, ⟨by decide, noReset_held (by decide)⟩,
    ⟨by decide, noReset_held (by decide)⟩, noReset_held (by decide),
    ⟨noReset_held (by decide), fun _ hk => listed_held hk⟩⟩

/-- The cases of the boundary: the button held, a Release in the boundary's own cycle, the earliest and the latest
Release that stop, a Finishing frame, and a Press in the cycle of the boundary. -/
theorem witness_FrameBoundary : frameCycles held.cfg = 146 ∧ NoReset held 146 ∧
    ((∀ k, k + 1 < 146 → listedButton held k = false) ∧ listedButton held 145 = false) ∧
    ((∀ k, k + 1 < 146 → listedButton atBoundary k = false) ∧ listedButton atBoundary 145 = true ∧
      NoReset atBoundary 146) ∧
    (listedButton tapped 0 = true ∧ ¬ PressAt tapped 145 ∧ NoReset tapped 146) ∧
    (144 + 1 < 146 ∧ listedButton latest 144 = true ∧ ¬ PressAt latest 145 ∧ NoReset latest 146) ∧
    ((st (afterStep0 .finishing true) (List.replicate 146 up)).regs.mode = .finishing ∧
      ¬ PressAt (st (afterStep0 .finishing true) (List.replicate 146 up)) 145 ∧
      NoReset (st (afterStep0 .finishing true) (List.replicate 146 up)) 146) ∧
    (PressAt again 145 ∧ NoReset again 146) := by
  have before : ∀ k, k < 145 → listedButton atBoundary k = false := by decide
  refine ⟨rfl, noReset_held (by decide), ⟨fun k hk => listed_held (by omega), listed_held (by decide)⟩,
    ⟨fun k hk => before k (by omega), by decide, ?_⟩, ⟨by decide, ?_, ?_⟩, ⟨by decide, by decide, ?_, ?_⟩,
    ⟨rfl, ?_, ?_⟩, ?_, ?_⟩
  all_goals first
    | (unfold PressAt; decide)
    | exact noReset_of_all (by simp [-List.reduceReplicate, atBoundary, tapped, latest, again, frame, st])
        (by simp [-List.reduceReplicate, atBoundary, tapped, latest, again, frame, st, down, up])

/-- The first and the last edge at which a Release lets one more frame be sent. -/
theorem witness_OneMoreFrame : periodCycles held.cfg + frameCycles held.cfg = 293 ∧
    (NoReset atBoundary 293 ∧ (∀ k, k + 1 < 146 → listedButton atBoundary k = false) ∧
      (146 ≤ 145 + 1 ∧ 145 < 147 ∧ listedButton atBoundary 145 = true) ∧ ¬ PressAt atBoundary 292) ∧
    (NoReset atTurnaroundEnd 293 ∧ (∀ k, k + 1 < 146 → listedButton atTurnaroundEnd k = false) ∧
      (146 ≤ 146 + 1 ∧ 146 < 147 ∧ listedButton atTurnaroundEnd 146 = true) ∧ ¬ PressAt atTurnaroundEnd 292) := by
  have before : ∀ k, k < 145 → listedButton atBoundary k = false := by decide
  have before' : ∀ k, k < 145 → listedButton atTurnaroundEnd k = false := by decide
  refine ⟨rfl, ⟨?_, fun k hk => before k (by omega), by decide, ?_⟩, ?_, fun k hk => before' k (by omega), by decide, ?_⟩
  all_goals first
    | (simp [-List.reduceReplicate, PressAt, listedButton, atBoundary, atTurnaroundEnd, frame, st, up]; done)
    | exact noReset_of_all (by simp [-List.reduceReplicate, atBoundary, atTurnaroundEnd, frame, st])
        (by simp [-List.reduceReplicate, atBoundary, atTurnaroundEnd, frame, st, down, up])

/-- The first and the last code bit of the reference code. -/
theorem witness_BitSent : ref.megacode = some 0xC917C2#24 ∧
    ((0#7 : Phase).toNat ≤ 95 ∧ ref.read (phaseO 0#7).toNat = some 0xC9#8) ∧
    ((95#7 : Phase).toNat ≤ 95 ∧ ref.read (phaseO 95#7).toNat = some 0xC2#8) := by decide

theorem witness_WellFormedStore : ref.wellFormedStore = true ∧ ref.valid = true := by decide

/-- A cycle with a Tick and a Press: SAMPLE and EXPIRE complete before the handlers. -/
theorem witness_CycleAgrees : ∃ u, runOperations
    [decodeButton (st (at_ .finishing 97#7 0xC2#8 true false true) [down]).buttonWord,
      decodeTimer (st (at_ .finishing 97#7 0xC2#8 true false true) [down]).timerWord]
    (st (at_ .finishing 97#7 0xC2#8 true false true) [down]) = .next u := ⟨_, rfl⟩

theorem witness_Reserved : (2#5 : BitVec 5) ≤ 2#5 ∧ (2#5 : BitVec 5) ≤ 31#5 := by decide

/-- Operations at both ends of their fields. -/
theorem witness_RoundTrip : wellFormed (.pauseA 0#2 0#3) = true ∧ wellFormed (.windowB 2#2 7#3) = true ∧
    wellFormed (.rsvdStep 31#5) = true ∧ wellFormed (.count 65535#16) = true ∧
    decode .event [0b00000110#8] = .ok [.tick true false, .press true] ∧
    decode .timer [0x00#8, 0x00#8, 0x01#8] = .ok [.hold 0#16] := by decide

end Sys2Proof.Tests
end

/-! PROOFS. Scope (spec/00_scope.md): one clock edge and its inputs (R17, R142), the quiescent state (R18), and the
agreement of the cycle with the event-level model (R15, R107). -/

namespace Sys2Proof.Machine

/-! ### What no operation of a clock edge touches: the configuration and the inputs (R31, R142) -/

/-- The two states have the same configuration and the same inputs to come; only the registers may differ. -/
structure SameEnvironment (s t : State) : Prop where
  cfg    : t.cfg = s.cfg
  stim   : t.stim = s.stim
  freeIx : t.freeIx = s.freeIx

theorem SameEnvironment.refl (s : State) : SameEnvironment s s := ⟨rfl, rfl, rfl⟩

theorem SameEnvironment.trans {s t u : State} (h : SameEnvironment s t) (h' : SameEnvironment t u) :
    SameEnvironment s u :=
  ⟨h'.cfg.trans h.cfg, h'.stim.trans h.stim, h'.freeIx.trans h.freeIx⟩

theorem phaseStep_sameEnvironment {s t : State} (h : phaseStep s = .next t) : SameEnvironment s t := by
  cases phaseStep_next h with
  | stop _ _ eq => subst eq; exact ⟨rfl, rfl, rfl⟩
  | turnaround _ _ eq => subst eq; exact ⟨rfl, rfl, rfl⟩
  | even _ _ _ _ eq => subst eq; exact ⟨rfl, rfl, rfl⟩
  | odd _ _ _ _ _ eq => subst eq; exact ⟨rfl, rfl, rfl⟩

theorem execTick_sameEnvironment {q n : Bool} {s t : State} (h : execTick q n s = .next t) : SameEnvironment s t := by
  obtain ⟨-, e⟩ | ⟨-, e⟩ := execTick_cases q n s <;> rw [e] at h
  · cases h; exact .refl s
  · exact phaseStep_sameEnvironment h

theorem execPress_sameEnvironment {x : Bool} {s t : State} (h : execPress x s = .next t) : SameEnvironment s t := by
  obtain ⟨-, e⟩ | ⟨-, b, -, e⟩ := execPress_cases x s <;> rw [e] at h <;> cases h
  · exact .refl s
  · exact ⟨rfl, rfl, rfl⟩

theorem execRelease_sameEnvironment {x : Bool} {s t : State} (h : execRelease x s = .next t) :
    SameEnvironment s t := by
  unfold execRelease at h
  split at h <;> cases h
  · exact ⟨rfl, rfl, rfl⟩
  · exact .refl s

theorem handleEvents_sameEnvironment {tick q n : Bool} {s t : State} (h : handleEvents tick q n s = .next t) :
    SameEnvironment s t := by
  obtain ⟨-, e⟩ | ⟨-, e⟩ := handleEvents_cases tick q n s <;> rw [e] at h
  · cases h; exact .refl s
  obtain ⟨s1, h1, h2⟩ := andThen_eq_next.1 h
  have tickEnv : SameEnvironment s s1 := by
    split at h1
    · exact execTick_sameEnvironment h1
    · cases h1; exact .refl s
  have buttonEnv : SameEnvironment s1 t := by
    split at h2
    · exact execPress_sameEnvironment h2
    split at h2
    · exact execRelease_sameEnvironment h2
    · cases h2; exact .refl _
  exact tickEnv.trans buttonEnv

theorem execCycle_sameEnvironment {s t : State} (h : execCycle s = .next t) : SameEnvironment s t := by
  obtain ⟨run, cnt, e, -⟩ := timerStep_next (s.setBtnQ s.pins.btnN)
  rw [execCycle_eq, e, andThen_next] at h
  have timed : SameEnvironment s ((s.setBtnQ s.pins.btnN).setTimer run cnt) := ⟨rfl, rfl, rfl⟩
  exact timed.trans (handleEvents_sameEnvironment h)

theorem execReset_sameEnvironment {s t : State} (h : execReset s = .next t) : SameEnvironment s t := by
  obtain ⟨b, -, e⟩ := execReset_next s
  rw [e] at h
  cases h
  split <;> exact ⟨rfl, rfl, rfl⟩

/-! ### The cycle without an event (R18) -/

theorem tickNow_of_stopped {s : State} (h : s.regs.tmrRun = false) : s.tickNow = false := by
  simp [State.tickNow, h]

@[simp] theorem handleEvents_noEdge (x : Bool) (s : State) : handleEvents false x x s = .next s := by
  cases x <;> simp [handleEvents, pressEdge, releaseEdge, execNoevent]

/-- With the timer stopped and the button at its last sampled level, a cycle changes nothing. -/
theorem execCycle_of_stopped_noEdge {s : State} (hrun : s.regs.tmrRun = false) (hbtn : s.pins.btnN = s.regs.btnQ) :
    execCycle s = .next s := by
  have same : s.setBtnQ s.regs.btnQ = s := rfl
  have held : timerStep s = .next s := by simp [timerStep, hrun, execHold]
  rw [execCycle_eq, hbtn, same, held, andThen_next, tickNow_of_stopped hrun, handleEvents_noEdge]

/-- A clock edge without reset is a cycle, after which its input levels are used up. -/
theorem step_of_noReset {s : State} (h : s.pins.rst = false) :
    step s = andThen (execCycle s) (fun t => .next t.advanceInputs) := by
  simp [step, h, decodeReset, exec]

/-! ### The first two operations of a cycle, as the decoders name them (R87, R165) -/

@[simp] theorem exec_decodeButton (s t : State) :
    exec (decodeButton s.buttonWord) t = .next (t.setBtnQ s.pins.btnN) := by
  rw [decodeButton, buttonWord_btnQ, buttonWord_btnN]
  rfl

@[simp] theorem exec_decodeTimer (s : State) : exec (decodeTimer s.timerWord) s = timerStep s := by
  unfold decodeTimer timerStep
  rw [timerWord_run, timerWord_cnt]
  by_cases hr : s.regs.tmrRun = true
  · by_cases h1 : s.regs.tmrCnt = 1#16
    · simp [hr, h1, exec]
    · by_cases h0 : s.regs.tmrCnt = 0#16
      · simp [hr, h0, exec]
      · simp [hr, h0, h1, exec]
  · simp [hr, exec]

/-- SAMPLE and the tick generator's operation, run as operations, leave what CYCLE hands to its handlers. -/
theorem runOperations_sample_timer (s : State) :
    runOperations [decodeButton s.buttonWord, decodeTimer s.timerWord] s = timerStep (s.setBtnQ s.pins.btnN) := by
  have timer : exec (decodeTimer s.timerWord) (s.setBtnQ s.pins.btnN) = timerStep (s.setBtnQ s.pins.btnN) :=
    exec_decodeTimer (s.setBtnQ s.pins.btnN)
  simp only [runOperations, exec_decodeButton, andThen_next, timer, andThen_pure]

/-! ### The outputs that effects drive (R107)

An event-level answer holds the outputs twice: in the engine's registers, and as `Out` effects. That the two agree is
what lets the answers of several events be read on the state one after the other. -/

/-- The pair (LED, RF) after the `Out` effects of a list, from a given pair. -/
def outputsAfter : List Effect → Bool × Bool → Bool × Bool
  | [], o => o
  | .out l r :: fx, _ => outputsAfter fx (l, r)
  | .read _ :: fx, o => outputsAfter fx o
  | .arm _ :: fx, o => outputsAfter fx o

/-- The engine's two output latches. -/
def EngineState.outputs (e : EngineState) : Bool × Bool := (e.led, e.rf)

theorem outputsAfter_append (fx fx2 : List Effect) (o : Bool × Bool) :
    outputsAfter (fx ++ fx2) o = outputsAfter fx2 (outputsAfter fx o) := by
  induction fx generalizing o with
  | nil => rfl
  | cons x fx ih => cases x <;> exact ih _

/-- Effects that have driven the outputs to a pair leave that pair alone: the last `Out` decides. -/
theorem outputsAfter_idem (fx : List Effect) (o : Bool × Bool) :
    outputsAfter fx (outputsAfter fx o) = outputsAfter fx o := by
  have const_or_id : (∀ o, outputsAfter fx o = o) ∨ ∃ c, ∀ o, outputsAfter fx o = c := by
    induction fx with
    | nil => exact .inl fun _ => rfl
    | cons x fx ih =>
      cases x with
      | out l r => exact .inr ⟨_, fun _ => rfl⟩
      | read a => exact ih
      | arm i => exact ih
  obtain h | ⟨c, h⟩ := const_or_id <;> simp [h]

/-- The `Out` effects of a phase step drive the latches to what the engine's registers hold after it. -/
theorem engineStep_outputs {cs : Memory} {e e' : EngineState} {p : Nat} {fx : List Effect}
    (h : engineStep cs e p = .ok (e', fx)) : outputsAfter fx e.outputs = e'.outputs := by
  unfold engineStep engineBitStep at h
  dsimp only at h
  repeat' split at h
  all_goals cases h
  all_goals rfl

theorem engine_outputs {cs : Memory} {e e' : EngineState} {ev : Event} {fx : List Effect}
    (h : engine cs e ev = .ok (e', fx)) : outputsAfter fx e.outputs = e'.outputs := by
  cases ev with
  | press =>
    rw [engine] at h
    split at h
    · exact engineStep_outputs (e := { e with mode := .transmitting, phase := 0#7 }) h
    · cases h; rfl
  | release =>
    cases h
    split <;> rfl
  | tick =>
    rw [engine] at h
    split at h
    · cases h; rfl
    · exact engineStep_outputs h

theorem engineRun_outputs {cs : Memory} {evs : List Event} {e e' : EngineState} {fx : List Effect}
    (h : engineRun cs e evs = .ok (e', fx)) : outputsAfter fx e.outputs = e'.outputs := by
  induction evs generalizing e fx with
  | nil => cases h; rfl
  | cons _ evs ih =>
    rw [engineRun] at h
    split at h
    · cases h
    next e1 fx1 h1 =>
      split at h
      · cases h
      next e2 fx2 h2 =>
        cases h
        rw [outputsAfter_append, engine_outputs h1, ih h2]

/-! ### Effects on the block's state -/

@[simp] theorem withEngine_engineState (s : State) : s.withEngine s.engineState = s := rfl
@[simp] theorem engineState_withEngine (s : State) (e : EngineState) : (s.withEngine e).engineState = e := rfl
@[simp] theorem withEngine_cfg (s : State) (e : EngineState) : (s.withEngine e).cfg = s.cfg := rfl

@[simp] theorem foldl_applyEffect_cfg (fx : List Effect) (s : State) : (fx.foldl applyEffect s).cfg = s.cfg := by
  induction fx generalizing s with
  | nil => rfl
  | cons x fx ih => rw [List.foldl_cons, ih]; cases x <;> rfl

/-- Effects change the engine's registers in the two latches only. -/
theorem foldl_applyEffect_engineState (fx : List Effect) (s : State) :
    (fx.foldl applyEffect s).engineState =
      { s.engineState with
        led := (outputsAfter fx s.engineState.outputs).1, rf := (outputsAfter fx s.engineState.outputs).2 } := by
  induction fx generalizing s with
  | nil => rfl
  | cons x fx ih => rw [List.foldl_cons, ih]; cases x <;> rfl

/-- What effects do outside the engine does not depend on the engine's registers. -/
theorem foldl_applyEffect_withEngine (fx : List Effect) (s : State) (e e' : EngineState) :
    (fx.foldl applyEffect (s.withEngine e)).withEngine e' = (fx.foldl applyEffect s).withEngine e' := by
  induction fx generalizing s e with
  | nil => rfl
  | cons x fx ih =>
    cases x with
    | read a => exact ih s e
    | out l r =>
      have swap : (s.withEngine e).setOut l r = (s.setOut l r).withEngine { e with led := l, rf := r } := rfl
      rw [List.foldl_cons, List.foldl_cons, applyEffect, applyEffect, swap]
      exact ih _ _
    | arm i => exact ih (s.arm i) e

/-- An answer replaces the engine's registers, so it does not depend on them. -/
theorem reflect_withEngine (s : State) (e : EngineState) (x : EngineResult) :
    reflect (s.withEngine e) x = reflect s x := by
  cases x <;> rfl

/-- An answer whose effects drive the outputs its registers hold is read as: the effects, then the registers. -/
theorem reflect_ok {s : State} {e e' : EngineState} {fx : List Effect} (h : outputsAfter fx e.outputs = e'.outputs) :
    reflect s (.ok (e', fx)) = .next ((fx.foldl applyEffect s).withEngine e') := by
  have settled : outputsAfter fx e'.outputs = e'.outputs := by rw [← h, outputsAfter_idem]
  have regs : (fx.foldl applyEffect (s.withEngine e')).engineState = e' := by
    rw [foldl_applyEffect_engineState, engineState_withEngine, settled]
    rfl
  have same : fx.foldl applyEffect (s.withEngine e') = (fx.foldl applyEffect (s.withEngine e')).withEngine e' :=
    (withEngine_engineState _).symm.trans (congrArg (State.withEngine _) regs)
  rw [reflect, same, foldl_applyEffect_withEngine]

/-- Running events one after the other on the block's state is reading the answer of the whole event-level run. -/
theorem reflect_engineRun_cons (s : State) (ev : Event) (evs : List Event) :
    reflect s (engineRun s.cfg.cs s.engineState (ev :: evs)) =
      andThen (reflect s (engine s.cfg.cs s.engineState ev))
        (fun t => reflect t (engineRun t.cfg.cs t.engineState evs)) := by
  rw [engineRun]
  split
  next r h => rw [h]; rfl
  next e1 fx1 h1 =>
    have out1 := engine_outputs h1
    rw [h1, reflect_ok out1, andThen_next, engineState_withEngine, withEngine_cfg, foldl_applyEffect_cfg]
    split
    next r h => rw [h]; rfl
    next e2 fx2 h2 =>
      have out2 := engineRun_outputs h2
      have out : outputsAfter (fx1 ++ fx2) s.engineState.outputs = e2.outputs := by
        rw [outputsAfter_append, out1, out2]
      rw [h2, reflect_ok out, reflect_ok out2, List.foldl_append, foldl_applyEffect_withEngine]

/-! ### The phase step (R70 to R77, R120 to R127) -/

/-- The bit position that R76 gives by the transmission index is the one WINDOW_A and WINDOW_B read by `r`. -/
theorem slotBit_eq_bitValue (c : Byte) {p : Phase} (h : p.toNat ≤ 95) :
    slotBit c (p.toNat / 4) = bitValue c (phaseR p) := by
  unfold slotBit bitValue
  rw [phaseR_toNat]
  congr 1
  omega

theorem fetches_phaseR (p : Phase) : fetches (phaseR p) = decide (p.toNat / 4 % 8 = 0) := by
  unfold fetches
  rw [← phaseR_toNat, decide_eq_decide, ← BitVec.toNat_inj]
  rfl

theorem phaseO_toNat_eq_div_div (p : Phase) : (phaseO p).toNat = p.toNat / 4 / 8 := by
  rw [phaseO_toNat, Nat.div_div_eq_div_mul]

/-- The interval a step arms, told by its quarter (R75). -/
theorem stepInterval_eq (p : Nat) : stepInterval p = if p % 4 % 2 = 1 then .short else .long := by
  rw [stepInterval, Nat.mod_mod_of_dvd p (by decide)]

theorem ofNat_toNat_succ (p : Phase) : BitVec.ofNat 7 (p.toNat + 1) = p + 1#7 := by
  apply BitVec.eq_of_toNat_eq
  simp

/-- A bit's step does what the event-level engine computes on numbers: one case per quarter, the same four writes. -/
theorem phaseStep_agrees_bitStep (s : State) (h : s.regs.phase.toNat ≤ 95) :
    phaseStep s = reflect s (engineBitStep s.cfg.cs s.engineState s.regs.phase.toNat) := by
  have bit : slotBit s.engineState.curByte (s.regs.phase.toNat / 4) = bitValue s.regs.curByte (phaseR s.regs.phase) :=
    slotBit_eq_bitValue _ h
  obtain ⟨hp, -⟩ | ⟨hp, -⟩ | ⟨hp, -⟩ | ⟨-, ⟨q, e⟩ | ⟨q, e⟩ | ⟨q, e⟩ | ⟨q, e⟩⟩ := phaseStep_cases s
  · simp [hp] at h
  · simp [hp] at h
  · bv_omega
  all_goals
    rw [e, engineBitStep, ofNat_toNat_succ, bit, stepInterval_eq, ← phaseQ_toNat, q]
  · rw [execPauseA, State.fetchByte, fetches_phaseR, phaseO_toNat_eq_div_div]
    by_cases f : s.regs.phase.toNat / 4 % 8 = 0
    · simp only [f, decide_true, State.csRead]
      cases s.cfg.cs.read (s.regs.phase.toNat / 4 / 8) <;> rfl
    · simp only [f, decide_false]
      rfl
  · rw [execWindowA]
    cases bitValue s.regs.curByte (phaseR s.regs.phase) <;> rfl
  · rfl
  · rw [execWindowB]
    cases bitValue s.regs.curByte (phaseR s.regs.phase) <;> rfl

/-- `PhaseStep()` does what the event-level engine does at the step index. -/
theorem phaseStep_agrees (s : State) :
    phaseStep s = reflect s (engineStep s.cfg.cs s.engineState s.regs.phase.toNat) := by
  obtain ⟨hp, e⟩ | ⟨hp, e⟩ | ⟨hp, e⟩ | ⟨hp, -⟩ := phaseStep_cases s
  · rw [e, hp]
    rfl
  · have mode : s.engineState.mode = s.regs.mode := rfl
    rw [e, hp, execBoundary, engineStep, mode]
    by_cases hm : s.regs.mode = .finishing <;> simp only [hm] <;> rfl
  · rw [e, engineStep, if_neg (by bv_omega), if_neg (by bv_omega), if_neg (by bv_omega)]
    rfl
  · rw [phaseStep_agrees_bitStep s hp, engineStep, if_pos hp]

/-- Each handler agrees with the event-level engine on its event (R107). -/
theorem exec_handlerOf_agrees (s : State) (ev : Event) :
    exec (handlerOf ev) s = reflect s (engine s.cfg.cs s.engineState ev) := by
  have mode : s.engineState.mode = s.regs.mode := rfl
  cases ev with
  | press =>
    rw [handlerOf, exec, execPress, engine, mode]
    split
    · exact (phaseStep_agrees ((s.setMode .transmitting).setPhase 0#7)).trans
        (reflect_withEngine s { s.engineState with mode := .transmitting, phase := 0#7 } _)
    · rfl
  | release =>
    rw [handlerOf, exec, execRelease, engine, mode]
    split <;> rfl
  | tick =>
    rw [handlerOf, exec, execTick, engine, mode]
    split
    · rfl
    · exact phaseStep_agrees s

/-- So do the handlers of several events, run one after the other. -/
theorem runOperations_handlers_agree (evs : List Event) (s : State) :
    runOperations (evs.map handlerOf) s = reflect s (engineRun s.cfg.cs s.engineState evs) := by
  induction evs generalizing s with
  | nil => rfl
  | cons ev evs ih =>
    rw [reflect_engineRun_cons, ← exec_handlerOf_agrees, List.map_cons, runOperations, funext ih]

theorem runOperations_singleton (i : Instr) (s : State) : runOperations [i] s = exec i s := andThen_pure (exec i s)

theorem runOperations_append (is js : List Instr) (s : State) :
    runOperations (is ++ js) s = andThen (runOperations is s) (runOperations js) := by
  induction is generalizing s with
  | nil => rfl
  | cons i is ih =>
    rw [List.cons_append, runOperations, runOperations, funext ih]
    cases exec i s <;> rfl

/-- The handlers a cycle runs are those of its events, in order; none with `gie = 0` (R165, R167). -/
theorem handleEvents_eq_runOperations {s t : State} (h : t.regs.gie = s.regs.gie) :
    handleEvents s.tickNow s.regs.btnQ s.pins.btnN t = runOperations (s.cycleEvents.map handlerOf) t := by
  unfold State.cycleEvents
  obtain ⟨hg, e⟩ | ⟨hg, e⟩ := handleEvents_cases s.tickNow s.regs.btnQ s.pins.btnN t <;> rw [e, ← h, hg]
  · rfl
  rw [if_pos rfl, List.map_append, runOperations_append]
  congr 1
  · cases s.tickNow
    · rfl
    · exact (runOperations_singleton (.tick false false) t).symm
  · funext t1
    cases s.regs.btnQ <;> cases s.pins.btnN
    · rfl
    · exact (runOperations_singleton (.release false) t1).symm
    · exact (runOperations_singleton (.press false) t1).symm
    · rfl

/-! ### The obligations of spec/00_scope.md -/

/-- Settles O31: RESET and CYCLE keep the configuration and the inputs, and then the edge's levels are used up. -/
theorem stepUsesOneInput : Obligations.StepUsesOneInput := by
  intro s t h
  obtain ⟨u, rfl, hu⟩ := step_eq_next.1 h
  have env : SameEnvironment s u := by
    obtain ⟨-, hr⟩ | ⟨-, hc⟩ := hu
    · exact execReset_sameEnvironment hr
    · exact execCycle_sameEnvironment hc
  rw [advanceInputs_cfg, advanceInputs_stim, advanceInputs_freeIx, env.cfg, env.stim, env.freeIx]
  exact ⟨rfl, rfl, rfl⟩

/-- Settles O41: the edge is a cycle without Tick and without button edge. -/
theorem quiescentUntilAnEdge : Obligations.QuiescentUntilAnEdge := by
  intro s _ _ hrun hrst hbtn
  rw [step_of_noReset hrst, execCycle_of_stopped_noEdge hrun hbtn, andThen_next]

/-- Settles O54: CYCLE runs the handlers of its events on what SAMPLE and the tick generator leave, each handler agrees
with the event-level engine, and the engine's registers are still those of the cycle's start. -/
theorem cycleAgreesWithTheEventLevelModel : Obligations.CycleAgreesWithTheEventLevelModel := by
  intro s u hu
  rw [runOperations_sample_timer] at hu
  obtain ⟨run, cnt, e, -⟩ := timerStep_next (s.setBtnQ s.pins.btnN)
  obtain rfl : (s.setBtnQ s.pins.btnN).setTimer run cnt = u := by simpa [e] using hu
  have live : ((s.setBtnQ s.pins.btnN).setTimer run cnt).regs.gie = s.regs.gie := rfl
  rw [exec, execCycle_eq, hu, andThen_next, handleEvents_eq_runOperations live, runOperations_handlers_agree]
  rfl

end Sys2Proof.Machine

/-! PROOFS. Architectural state (spec/10_state.md): which operation writes which register (R20), the invariants of
R33 along a clock edge, the byte in hand (R22), and `gie` as the validity of the store (R26). -/

namespace Sys2Proof.Machine

/-! ### The register frame (R20): one rule per operation -/

/-- Going from `s` to `t` wrote no register outside the list. -/
def WritesOnly (ws : List Register) (s t : State) : Prop := ∀ r, r ∉ ws → Agree s.regs t.regs r

/-- The frame register by register: each is listed or kept. -/
theorem writesOnly_iff {ws : List Register} {s t : State} :
    WritesOnly ws s t ↔
      (.mode ∈ ws ∨ s.regs.mode = t.regs.mode) ∧ (.phase ∈ ws ∨ s.regs.phase = t.regs.phase) ∧
      (.curByte ∈ ws ∨ s.regs.curByte = t.regs.curByte) ∧ (.led ∈ ws ∨ s.regs.led = t.regs.led) ∧
      (.rf ∈ ws ∨ s.regs.rf = t.regs.rf) ∧ (.gie ∈ ws ∨ s.regs.gie = t.regs.gie) ∧
      (.tmrRun ∈ ws ∨ s.regs.tmrRun = t.regs.tmrRun) ∧ (.tmrCnt ∈ ws ∨ s.regs.tmrCnt = t.regs.tmrCnt) ∧
      (.btnQ ∈ ws ∨ s.regs.btnQ = t.regs.btnQ) := by
  simp only [or_iff_not_imp_left]
  constructor
  · intro h
    exact ⟨h _, h _, h _, h _, h _, h _, h _, h _, h _⟩
  · rintro ⟨mode, phase, curByte, led, rf, gie, tmrRun, tmrCnt, btnQ⟩ r
    cases r <;> assumption

theorem WritesOnly.refl (ws : List Register) (s : State) : WritesOnly ws s s := by simp [writesOnly_iff]

theorem WritesOnly.mono {ws ws' : List Register} {s t : State} (h : WritesOnly ws s t) (sub : ws ⊆ ws') :
    WritesOnly ws' s t :=
  fun r hr => h r fun mem => hr (sub mem)

theorem WritesOnly.trans {ws ws' : List Register} {s t u : State} (h : WritesOnly ws s t) (h' : WritesOnly ws' t u) :
    WritesOnly (ws ++ ws') s u := by
  intro r hr
  rw [List.mem_append, not_or] at hr
  have first := h r hr.1
  have second := h' r hr.2
  cases r <;> exact Eq.trans first second

theorem pause_writesOnly (s : State) : WritesOnly [.phase, .led, .rf, .tmrRun, .tmrCnt] s s.pause := by
  simp [writesOnly_iff]

theorem setCurByte_writesOnly (b : Byte) (s : State) : WritesOnly [.curByte] s (s.setCurByte b) := by
  simp [writesOnly_iff]

theorem execPauseA_writesOnly {o : BitVec 2} {r : BitVec 3} {s t : State} (h : execPauseA o r s = .next t) :
    WritesOnly (writes (.pauseA o r)) s t := by
  unfold execPauseA at h
  obtain ⟨-, e⟩ | ⟨-, b, -, e⟩ | ⟨-, -, e⟩ := fetchByte_cases s o r (fun t => .next t.pause) <;> rw [e] at h <;> cases h
  · exact (pause_writesOnly s).mono (by simp [writes])
  · exact ((setCurByte_writesOnly b s).trans (pause_writesOnly _)).mono (by simp [writes])

theorem execWindowA_writesOnly {o : BitVec 2} {r : BitVec 3} {s t : State} (h : execWindowA o r s = .next t) :
    WritesOnly (writes (.windowA o r)) s t := by
  cases h
  simp [writesOnly_iff, writes, State.window]

theorem execWindowB_writesOnly {o : BitVec 2} {r : BitVec 3} {s t : State} (h : execWindowB o r s = .next t) :
    WritesOnly (writes (.windowB o r)) s t := by
  cases h
  split <;> simp [writesOnly_iff, writes, State.window]

theorem execBlank_writesOnly {s t : State} (h : execBlank s = .next t) : WritesOnly (writes .blank) s t := by
  cases h
  simp [writesOnly_iff, writes]

theorem execBoundary_writesOnly {s t : State} (h : execBoundary s = .next t) : WritesOnly (writes .boundary) s t := by
  unfold execBoundary at h
  split at h <;> cases h <;> simp [writesOnly_iff, writes]

/-- A phase step, whichever it is, writes the engine's registers and the timer (R20: the list of PRESS and of TICK). -/
theorem phaseStep_writesOnly {q n : Bool} {s t : State} (h : phaseStep s = .next t) :
    WritesOnly (writes (.tick q n)) s t := by
  cases phaseStep_next h with
  | stop _ _ eq => subst eq; simp [writesOnly_iff, writes]
  | turnaround _ _ eq => subst eq; simp [writesOnly_iff, writes]
  | even _ _ _ _ eq => subst eq; simp [writesOnly_iff, writes]
  | odd _ _ _ _ _ eq => subst eq; simp [writesOnly_iff, writes]

theorem execTick_writesOnly {q n : Bool} {s t : State} (h : execTick q n s = .next t) :
    WritesOnly (writes (.tick q n)) s t := by
  obtain ⟨-, e⟩ | ⟨-, e⟩ := execTick_cases q n s <;> rw [e] at h
  · cases h; exact .refl _ s
  · exact phaseStep_writesOnly h

theorem execPress_writesOnly {x : Bool} {s t : State} (h : execPress x s = .next t) :
    WritesOnly (writes (.press x)) s t := by
  obtain ⟨-, e⟩ | ⟨-, b, -, e⟩ := execPress_cases x s <;> rw [e] at h <;> cases h
  · exact .refl _ s
  · simp [writesOnly_iff, writes]

theorem execRelease_writesOnly {x : Bool} {s t : State} (h : execRelease x s = .next t) :
    WritesOnly (writes (.release x)) s t := by
  cases h
  split <;> simp [writesOnly_iff, writes]

theorem execCount_writesOnly {c : Count} {s t : State} (h : execCount c s = .next t) :
    WritesOnly (writes (.count c)) s t := by
  cases h
  simp [writesOnly_iff, writes]

theorem execHold_writesOnly {c : Count} {s t : State} (h : execHold c s = .next t) :
    WritesOnly (writes (.hold c)) s t := by
  cases h
  split <;> simp [writesOnly_iff, writes]

/-- What TICK, PRESS and RELEASE each keep, the handlers of a cycle keep. -/
theorem handleEvents_keeps {P : State → Prop} {tick q n : Bool}
    (onTick : ∀ {a b}, execTick q n a = .next b → P a → P b) (onPress : ∀ {a b}, execPress tick a = .next b → P a → P b)
    (onRelease : ∀ {a b}, execRelease tick a = .next b → P a → P b) {s t : State}
    (h : handleEvents tick q n s = .next t) (start : P s) : P t := by
  obtain ⟨-, e⟩ | ⟨-, e⟩ := handleEvents_cases tick q n s <;> rw [e] at h
  · cases h; exact start
  obtain ⟨s1, h1, h2⟩ := andThen_eq_next.1 h
  have ticked : P s1 := by
    split at h1
    · exact onTick h1 start
    · cases h1; exact start
  split at h2
  · exact onPress h2 ticked
  split at h2
  · exact onRelease h2 ticked
  · cases h2; exact ticked

theorem handleEvents_writesOnly {tick q n : Bool} {s t : State} (h : handleEvents tick q n s = .next t) :
    WritesOnly (writes (.tick q n)) s t := by
  refine handleEvents_keeps (P := WritesOnly (writes (.tick q n)) s) (fun e w => ?_) (fun e w => ?_) (fun e w => ?_) h
    (.refl _ s)
  · exact (w.trans (execTick_writesOnly e)).mono (by simp)
  · exact (w.trans (execPress_writesOnly e)).mono (by simp [writes])
  · exact (w.trans (execRelease_writesOnly e)).mono (by simp [writes])

theorem execCycle_writesOnly {s t : State} (h : execCycle s = .next t) : WritesOnly (writes .cycle) s t := by
  obtain ⟨run, cnt, e, -⟩ := timerStep_next (s.setBtnQ s.pins.btnN)
  rw [execCycle_eq, e, andThen_next] at h
  have timed : WritesOnly [.btnQ, .tmrRun, .tmrCnt] s ((s.setBtnQ s.pins.btnN).setTimer run cnt) := by
    simp [writesOnly_iff]
  exact (timed.trans (handleEvents_writesOnly h)).mono (by simp [writes])

/-- Every operation writes at most the registers R20 lists for it. -/
theorem exec_writesOnly {i : Instr} {s t : State} (h : exec i s = .next t) : WritesOnly (writes i) s t := by
  cases i with
  | pauseA o r => exact execPauseA_writesOnly h
  | windowA o r => exact execWindowA_writesOnly h
  | pauseB o r => cases h; exact pause_writesOnly s
  | windowB o r => exact execWindowB_writesOnly h
  | blank => exact execBlank_writesOnly h
  | boundary => exact execBoundary_writesOnly h
  | rsvdStep x => cases h
  | press x => exact execPress_writesOnly h
  | release x => exact execRelease_writesOnly h
  | tick q n => exact execTick_writesOnly h
  | noevent q => cases h; exact .refl _ s
  | sample q n => cases h; simp [writesOnly_iff, writes]
  | armShort p => cases h; simp [writesOnly_iff, writes]
  | armLong p => cases h; simp [writesOnly_iff, writes]
  | count c => exact execCount_writesOnly h
  | expire => cases h; simp [writesOnly_iff, writes]
  | hold c => exact execHold_writesOnly h
  | cycle => exact execCycle_writesOnly h
  | reset => simp [writesOnly_iff, writes]
  | wait => cases h; exact .refl _ s

/-- A cycle remembers the button's level. -/
theorem execCycle_btnQ {s t : State} (h : execCycle s = .next t) : t.regs.btnQ = s.pins.btnN := by
  obtain ⟨run, cnt, e, -⟩ := timerStep_next (s.setBtnQ s.pins.btnN)
  rw [execCycle_eq, e, andThen_next] at h
  have kept : s.pins.btnN = t.regs.btnQ := handleEvents_writesOnly h .btnQ (by simp [writes])
  exact kept.symm

/-- A cycle keeps the global event enable (R26: only RESET writes it). -/
theorem execCycle_gie {s t : State} (h : execCycle s = .next t) : t.regs.gie = s.regs.gie := by
  have kept : s.regs.gie = t.regs.gie := execCycle_writesOnly h .gie (by simp [writes])
  exact kept.symm

/-! ### The invariants of R33, kind of state by kind of state -/

@[simp] theorem inv_advanceInputs {s : State} : Inv s.advanceInputs ↔ Inv s := by simp [Inv]

/-- Live and Idle with everything off (items 1 to 3 and 7 say no more of such a state). -/
theorem inv_of_idle {s : State} (live : s.regs.gie = true) (idle : s.regs.mode = .idle) (led : s.regs.led = false)
    (rf : s.regs.rf = false) (stopped : s.regs.tmrRun = false) (expired : s.regs.tmrCnt = 0#16)
    (phase : s.regs.phase = 0#7) : Inv s := by
  constructor <;> simp [OutputsExclusive, *]

/-- Inert: Idle with the LED lit and everything else off. -/
theorem inv_of_inert {s : State} (inert : s.regs.gie = false) (idle : s.regs.mode = .idle) (led : s.regs.led = true)
    (rf : s.regs.rf = false) (stopped : s.regs.tmrRun = false) (expired : s.regs.tmrCnt = 0#16)
    (phase : s.regs.phase = 0#7) : Inv s := by
  constructor <;> simp [OutputsExclusive, *]

/-- In a frame: live, with the timer armed. Items 4 to 6 and 9 remain, and the LED is lit exactly when RF is off. -/
theorem inv_of_inFrame {s : State} (live : s.regs.gie = true) (inFrame : s.regs.mode ≠ .idle)
    (running : s.regs.tmrRun = true) (armed : 1 ≤ s.regs.tmrCnt.toNat ∧ s.regs.tmrCnt.toNat ≤ tLong s.cfg)
    (phaseRange : s.regs.phase.toNat ≤ 97)
    (turnaround : s.regs.phase = 0#7 → s.regs.rf = false ∧ s.regs.tmrCnt.toNat ≤ tShort s.cfg)
    (pulse : s.regs.rf = true → s.regs.phase.toNat % 2 = 0 ∧ 2 ≤ s.regs.phase.toNat ∧ s.regs.phase.toNat ≤ 96 ∧
      s.regs.tmrCnt.toNat ≤ tShort s.cfg)
    (led : s.regs.led = !s.regs.rf) (held : s.regs.mode = .transmitting → s.regs.btnQ = false) : Inv s where
  exclusive := by simp [OutputsExclusive, led]
  inert := by simp [live]
  idle _ h := absurd h inFrame
  armed _ := ⟨running, armed⟩
  phaseRange := phaseRange
  turnaround _ h := by simp [led, turnaround h]
  pulse h := ⟨inFrame, pulse h⟩
  stopped := by simp [running]
  held := held
  ledInFrame _ := led

/-- A frame is live (item 2). -/
theorem live_of_inFrame {s : State} (inv : Inv s) (inFrame : s.regs.mode ≠ .idle) : s.regs.gie = true := by
  by_contra dead
  exact inFrame (inv.inert (by simpa using dead)).1

/-- The timer runs in a frame only (items 2 and 3). -/
theorem inFrame_of_running {s : State} (inv : Inv s) (running : s.regs.tmrRun = true) : s.regs.mode ≠ .idle := by
  intro idle
  have stopped : s.regs.tmrRun = false := by
    cases gie : s.regs.gie with
    | false =>
      obtain ⟨-, -, -, stopped, -⟩ := inv.inert gie
      exact stopped
    | true =>
      obtain ⟨-, -, stopped, -⟩ := inv.idle gie idle
      exact stopped
  simp [stopped] at running

/-! ### The invariants inside a cycle (R165)

SAMPLE writes `btn_q` before RELEASE leaves Transmitting, and EXPIRE stops the timer before the phase step arms it again:
between the parts of a cycle item 9, and at a Tick item 4, do not hold. -/

/-- R33 but for item 9, which alone speaks of the button. -/
def InvUpToButton (s : State) : Prop := Inv (s.setBtnQ false)

theorem inv_iff_upToButton {s : State} :
    Inv s ↔ InvUpToButton s ∧ (s.regs.mode = .transmitting → s.regs.btnQ = false) := by
  constructor
  · intro inv
    exact ⟨{ inv with held := fun _ => rfl }, inv.held⟩
  · rintro ⟨inv, held⟩
    exact { inv with held := held }

/-- A Tick has been detected: the timer has expired, and the rest of a frame's state is as R33 says. -/
structure StepDue (s : State) : Prop where
  live       : s.regs.gie = true
  inFrame    : s.regs.mode ≠ .idle
  stopped    : s.regs.tmrRun = false
  expired    : s.regs.tmrCnt = 0#16
  phaseRange : s.regs.phase.toNat ≤ 97
  pulseEven  : s.regs.rf = true → s.regs.phase.toNat % 2 = 0
  ledInFrame : s.regs.led = !s.regs.rf

/-- At a Tick, SAMPLE and EXPIRE leave a phase step due. -/
theorem stepDue_of_tick {s : State} (inv : Inv s) (tick : s.tickNow = true) (n : Bool) :
    StepDue ((s.setBtnQ n).setTimer false 0#16) := by
  obtain ⟨running, -⟩ : s.regs.tmrRun = true ∧ s.regs.tmrCnt = 1#16 := by simpa [State.tickNow] using tick
  have inFrame := inFrame_of_running inv running
  have live := live_of_inFrame inv inFrame
  exact {
    live := live
    inFrame := inFrame
    stopped := rfl
    expired := rfl
    phaseRange := inv.phaseRange
    pulseEven := fun rf => (inv.pulse rf).2.1
    ledInFrame := inv.ledInFrame inFrame }

/-- Counting down keeps the invariants while the count stays positive: they bound it from above only, but for item 4. -/
theorem inv_setTimer_of_le {s : State} (inv : Inv s) (inFrame : s.regs.mode ≠ .idle) {c : Count}
    (pos : 1 ≤ c.toNat) (le : c.toNat ≤ s.regs.tmrCnt.toNat) : Inv (s.setTimer true c) := by
  obtain ⟨-, -, top⟩ := inv.armed inFrame
  have live := live_of_inFrame inv inFrame
  refine inv_of_inFrame live inFrame rfl ⟨pos, le.trans top⟩ inv.phaseRange
    (fun turn => ?_) (fun rf => ?_) (inv.ledInFrame inFrame) inv.held
  · obtain ⟨-, rf, short⟩ := inv.turnaround inFrame turn
    exact ⟨rf, le.trans short⟩
  · obtain ⟨-, even, low, high, short⟩ := inv.pulse rf
    exact ⟨even, low, high, le.trans short⟩

/-- What SAMPLE and the tick generator leave for the handlers of a cycle: a phase step due at a Tick, else the
invariants up to the button. -/
theorem timerStep_inv {s : State} (inv : Inv s) (n : Bool) : ∃ run cnt,
    timerStep (s.setBtnQ n) = .next ((s.setBtnQ n).setTimer run cnt) ∧
    (s.tickNow = true → StepDue ((s.setBtnQ n).setTimer run cnt)) ∧
    (s.tickNow = false → InvUpToButton ((s.setBtnQ n).setTimer run cnt)) := by
  obtain ⟨upTo, -⟩ := inv_iff_upToButton.1 inv
  obtain ⟨stopped, e⟩ | ⟨running, zero, -⟩ | ⟨running, one, e⟩ | ⟨running, ne0, ne1, e⟩ :=
    timerStep_cases (s.setBtnQ n)
  · rw [setBtnQ_tmrRun] at stopped
    exact ⟨s.regs.tmrRun, s.regs.tmrCnt, e, by simp [State.tickNow, stopped], fun _ => upTo⟩
  · rw [setBtnQ_tmrCnt] at zero
    obtain ⟨-, pos, -⟩ := inv.armed (inFrame_of_running inv running)
    exact absurd pos (by simp [zero])
  · rw [setBtnQ_tmrRun] at running
    rw [setBtnQ_tmrCnt] at one
    exact ⟨false, 0#16, e, fun tick => stepDue_of_tick inv tick n, by simp [State.tickNow, running, one]⟩
  · rw [setBtnQ_tmrCnt] at *
    have inFrame := inFrame_of_running inv running
    have pos : 1 ≤ (s.regs.tmrCnt - 1#16).toNat := by bv_omega
    have le : (s.regs.tmrCnt - 1#16).toNat ≤ s.regs.tmrCnt.toNat := by bv_omega
    refine ⟨true, _, e, by simp [State.tickNow, ne1], fun _ => ?_⟩
    exact inv_setTimer_of_le (s := s.setBtnQ false) upTo inFrame pos le

/-! ### The handlers and the invariants (R100 to R102, R121 to R126) -/

/-- The count of a freshly armed timer (R78 item 5, R150). -/
theorem armed_short (cfg : Config) : 1 ≤ (BitVec.ofNat 16 (tShort cfg)).toNat ∧
    (BitVec.ofNat 16 (tShort cfg)).toNat ≤ tLong cfg ∧ (BitVec.ofNat 16 (tShort cfg)).toNat ≤ tShort cfg := by
  have cnt : (BitVec.ofNat 16 (tShort cfg)).toNat = tShort cfg := intervalCycles_toNat cfg .short
  have pos := tShort_pos cfg
  rw [cnt, tLong_eq]
  omega

theorem armed_long (cfg : Config) : 1 ≤ (BitVec.ofNat 16 (tLong cfg)).toNat ∧
    (BitVec.ofNat 16 (tLong cfg)).toNat ≤ tLong cfg := by
  have cnt : (BitVec.ofNat 16 (tLong cfg)).toNat = tLong cfg := intervalCycles_toNat cfg .long
  have pos := tShort_pos cfg
  rw [cnt, tLong_eq]
  omega

/-- A step index of a frame advances without overflow (R21). -/
theorem phase_succ_toNat {p : Phase} (range : p.toNat ≤ 96) : (p + 1#7).toNat = p.toNat + 1 := by bv_omega

theorem phase_succ_ne_zero {p : Phase} (range : p.toNat ≤ 96) : p + 1#7 ≠ 0#7 := by bv_omega

/-- A pause taken in a frame: `(led, rf) = (1, 0)`, the long interval, the next step index. -/
theorem pause_inv {s : State} (live : s.regs.gie = true) (inFrame : s.regs.mode ≠ .idle)
    (range : s.regs.phase.toNat ≤ 96) : InvUpToButton s.pause := by
  have advanced : (s.regs.phase + 1#7).toNat ≤ 97 := by rw [phase_succ_toNat range]; omega
  exact inv_of_inFrame live inFrame rfl (armed_long s.cfg) advanced (fun zero => absurd zero (phase_succ_ne_zero range))
    (fun on => by cases on) rfl (fun _ => rfl)

/-- A pulse window of a frame: complementary outputs, the short interval, the next, even, step index. -/
theorem window_inv {s : State} (live : s.regs.gie = true) (inFrame : s.regs.mode ≠ .idle)
    (range : s.regs.phase.toNat ≤ 95) (parity : s.regs.phase.toNat % 2 = 1) (r : Bool) :
    InvUpToButton ((s.setOut (!r) r).arm .short).nextPhase := by
  obtain ⟨pos, long, short⟩ := armed_short s.cfg
  have range' : s.regs.phase.toNat ≤ 96 := by omega
  have advanced : (s.regs.phase + 1#7).toNat % 2 = 0 ∧ 2 ≤ (s.regs.phase + 1#7).toNat ∧
      (s.regs.phase + 1#7).toNat ≤ 96 := by rw [phase_succ_toNat range']; omega
  obtain ⟨even, low, high⟩ := advanced
  exact inv_of_inFrame live inFrame rfl ⟨pos, long⟩ (Nat.le_succ_of_le high)
    (fun zero => absurd zero (phase_succ_ne_zero range')) (fun _ => ⟨even, low, high, short⟩) rfl (fun _ => rfl)

/-- The turnaround, entered with RF off. -/
theorem turnaround_inv {s : State} (live : s.regs.gie = true) (inFrame : s.regs.mode ≠ .idle)
    (rf : s.regs.rf = false) (led : s.regs.led = !s.regs.rf) : InvUpToButton ((s.arm .short).setPhase 0#7) := by
  obtain ⟨pos, long, short⟩ := armed_short s.cfg
  exact inv_of_inFrame live inFrame rfl ⟨pos, long⟩ (Nat.zero_le 97) (fun _ => ⟨rf, short⟩)
    (fun on => absurd (rf.symm.trans on) (by simp)) led (fun _ => rfl)

/-- The phase step of a Tick restores the invariants. BOUNDARY finds RF off, since 97 is odd and RF is on at even indices
only; a WINDOW_B that keeps the outputs finds them complementary. -/
theorem phaseStep_inv {s t : State} (due : StepDue s) (h : phaseStep s = .next t) : InvUpToButton t := by
  obtain ⟨live, inFrame, stopped, expired, -, pulseEven, led⟩ := due
  cases phaseStep_next h with
  | stop _ _ eq => subst eq; exact inv_of_idle live rfl rfl rfl stopped expired rfl
  | turnaround phase _ eq =>
    have rf : s.regs.rf = false := by
      by_contra on
      simpa [phase] using pulseEven (by simpa using on)
    subst eq
    exact turnaround_inv live inFrame rf led
  | even range _ b _ eq => subst eq; exact pause_inv (s := s.setCurByte b) live inFrame range
  | odd range parity l r outputs eq =>
    have complementary : l = !r := by
      obtain ⟨-, -, rfl⟩ | ⟨-, -, rfl, rfl⟩ | ⟨-, -, rfl, rfl⟩ := outputs
      · simp
      · rfl
      · exact led
    subst eq complementary
    exact window_inv live inFrame range parity r

theorem execPress_inv {x : Bool} {s t : State} (live : s.regs.gie = true) (inv : InvUpToButton s)
    (h : execPress x s = .next t) : InvUpToButton t := by
  obtain ⟨-, e⟩ | ⟨-, b, -, e⟩ := execPress_cases x s <;> rw [e] at h <;> cases h
  · exact inv
  · exact pause_inv live (by simp) (by simp)

/-- After RELEASE the mode is not Transmitting, so item 9 holds whatever the button's level. -/
theorem execRelease_inv {x : Bool} {s t : State} (inv : InvUpToButton s) (h : execRelease x s = .next t) : Inv t := by
  cases h
  split
  · next transmitting =>
    have inFrame : s.regs.mode ≠ .idle := by simp [transmitting]
    have live : s.regs.gie = true := live_of_inFrame (s := s.setBtnQ false) inv inFrame
    obtain ⟨running, armed⟩ := inv.armed inFrame
    exact inv_of_inFrame live (by simp) running armed inv.phaseRange (fun turn => (inv.turnaround inFrame turn).2)
      (fun rf => (inv.pulse rf).2) (inv.ledInFrame inFrame) (by simp)
  · next other => exact inv_iff_upToButton.2 ⟨inv, fun h => absurd h other⟩

/-- TICK starts no transmission. -/
theorem execTick_transmitting {q n : Bool} {s t : State} (h : execTick q n s = .next t)
    (after : t.regs.mode = .transmitting) : s.regs.mode = .transmitting := by
  obtain ⟨-, e⟩ | ⟨-, e⟩ := execTick_cases q n s <;> rw [e] at h
  · cases h; exact after
  cases phaseStep_next h with
  | stop _ _ eq => subst eq; cases after
  | turnaround _ _ eq => subst eq; exact after
  | even _ _ _ _ eq => subst eq; exact after
  | odd _ _ _ _ _ eq => subst eq; exact after

/-- TICK's part of the handlers: the invariants hold again but for the button, `gie` and `btn_q` are kept, and no
transmission starts. -/
theorem tickPart_inv {tick q n : Bool} {s t : State} (due : tick = true → StepDue s)
    (kept : tick = false → InvUpToButton s) (h : (if tick then execTick q n s else .next s) = .next t) :
    InvUpToButton t ∧ t.regs.gie = s.regs.gie ∧ t.regs.btnQ = s.regs.btnQ ∧
      (t.regs.mode = .transmitting → s.regs.mode = .transmitting) := by
  cases tick with
  | false => cases h; exact ⟨kept rfl, rfl, rfl, id⟩
  | true =>
    replace h : execTick q n s = .next t := h
    have frame := execTick_writesOnly h
    have gie : s.regs.gie = t.regs.gie := frame .gie (by simp [writes])
    have btnQ : s.regs.btnQ = t.regs.btnQ := frame .btnQ (by simp [writes])
    obtain ⟨idle, -⟩ | ⟨-, e⟩ := execTick_cases q n s
    · exact absurd idle (due rfl).inFrame
    · exact ⟨phaseStep_inv (due rfl) (e ▸ h), gie.symm, btnQ.symm, execTick_transmitting h⟩

/-- The handlers of a cycle restore the invariants. For item 9: a Press leaves the button down, a Release leaves
Transmitting, and without an edge Transmitting and the button are as they were. -/
theorem handleEvents_inv {tick q n : Bool} {s t : State} (due : tick = true → StepDue s)
    (kept : tick = false → InvUpToButton s) (held : s.regs.mode = .transmitting → q = false) (btnQ : s.regs.btnQ = n)
    (h : handleEvents tick q n s = .next t) : Inv t := by
  obtain ⟨dead, e⟩ | ⟨live, e⟩ := handleEvents_cases tick q n s <;> rw [e] at h
  · cases h
    cases tick with
    | true => exact absurd (dead.symm.trans (due rfl).live) (by simp)
    | false =>
      refine inv_iff_upToButton.2 ⟨kept rfl, fun transmitting => ?_⟩
      obtain ⟨idle, -⟩ := (kept rfl).inert dead
      exact absurd (transmitting.symm.trans idle) (by simp)
  obtain ⟨s1, h1, h2⟩ := andThen_eq_next.1 h
  obtain ⟨inv, gie, button, starts⟩ := tickPart_inv due kept h1
  rw [btnQ] at button
  rw [live] at gie
  cases q <;> cases n
  · cases h2
    exact inv_iff_upToButton.2 ⟨inv, fun _ => button⟩
  · replace h2 : execRelease tick s1 = .next t := h2
    exact execRelease_inv inv h2
  · replace h2 : execPress tick s1 = .next t := h2
    have down : s1.regs.btnQ = t.regs.btnQ := execPress_writesOnly h2 .btnQ (by simp [writes])
    exact inv_iff_upToButton.2 ⟨execPress_inv gie inv h2, fun _ => down.symm.trans button⟩
  · cases h2
    exact inv_iff_upToButton.2 ⟨inv, fun transmitting => absurd (held (starts transmitting)) (by simp)⟩

/-- Every handler completes: the phase step of a Tick by the store's three bytes, a Press by its first. -/
theorem handleEvents_completes {tick q n : Bool} {s : State} (due : tick = true → StepDue s)
    (sendable : Sendable s.cfg.cs) : ∃ t, handleEvents tick q n s = .next t := by
  obtain ⟨-, e⟩ | ⟨-, e⟩ := handleEvents_cases tick q n s
  · exact ⟨s, e⟩
  obtain ⟨s1, h1⟩ : ∃ s1, (if tick then execTick q n s else .next s) = .next s1 := by
    cases tick with
    | false => exact ⟨s, rfl⟩
    | true =>
      obtain ⟨-, e1⟩ | ⟨-, e1⟩ := execTick_cases q n s
      · exact ⟨s, e1⟩
      · obtain ⟨s1, h1⟩ := phaseStep_completes s (due rfl).phaseRange sendable
        exact ⟨s1, e1.trans h1⟩
  rw [e, h1, andThen_next]
  cases q <;> cases n
  · exact ⟨_, rfl⟩
  · exact ⟨_, rfl⟩
  · obtain ⟨-, e2⟩ | ⟨-, b, -, e2⟩ := execPress_cases tick s1
    · exact ⟨_, e2⟩
    · exact ⟨_, e2⟩
  · exact ⟨_, rfl⟩

/-! ### The cycle, the reset edge and the invariants (R165, R210) -/

theorem execCycle_inv {s t : State} (inv : Inv s) (h : execCycle s = .next t) : Inv t := by
  obtain ⟨run, cnt, e, due, kept⟩ := timerStep_inv inv s.pins.btnN
  rw [execCycle_eq, e, andThen_next] at h
  exact handleEvents_inv due kept inv.held rfl h

theorem execCycle_completes {s : State} (inv : Inv s) (sendable : Sendable s.cfg.cs) : ∃ t, execCycle s = .next t := by
  obtain ⟨run, cnt, e, due, -⟩ := timerStep_inv inv s.pins.btnN
  rw [execCycle_eq, e, andThen_next]
  exact handleEvents_completes due sendable

/-- RESET establishes the invariants from any state. -/
theorem execReset_inv {s t : State} (h : execReset s = .next t) : Inv t := by
  obtain ⟨b, -, e⟩ := execReset_next s
  rw [e] at h
  cases h
  split
  · exact inv_of_idle rfl rfl rfl rfl rfl rfl rfl
  · exact inv_of_inert rfl rfl rfl rfl rfl rfl rfl

theorem step_inv {s t : State} (inv : Inv s) (h : step s = .next t) : Inv t := by
  obtain ⟨u, rfl, ⟨-, hr⟩ | ⟨-, hc⟩⟩ := step_eq_next.1 h
  · exact inv_advanceInputs.2 (execReset_inv hr)
  · exact inv_advanceInputs.2 (execCycle_inv inv hc)

theorem step_completes {s : State} (inv : Inv s) (sendable : Sendable s.cfg.cs) : ∃ t, step s = .next t := by
  obtain ⟨u, hu⟩ : ∃ u, (s.pins.rst = true ∧ execReset s = .next u) ∨ (s.pins.rst = false ∧ execCycle s = .next u) := by
    cases s.pins.rst with
    | true =>
      obtain ⟨b, -, e⟩ := execReset_next s
      exact ⟨_, .inl ⟨rfl, e⟩⟩
    | false =>
      obtain ⟨u, hu⟩ := execCycle_completes inv sendable
      exact ⟨u, .inr ⟨rfl, hu⟩⟩
  exact ⟨_, step_eq_next.2 ⟨u, rfl, hu⟩⟩

/-! ### The byte in hand (R22, R77) -/

/-- A fetch of step `p` brings the byte that the next step index calls for. -/
theorem byteInHand_succ_of_fetch {p : Phase} (range : p.toNat ≤ 95) (group : p.toNat % 32 = 0) :
    byteInHand (p + 1#7) = p.toNat / 32 := by
  have range' : p.toNat ≤ 96 := by omega
  rw [byteInHand, if_neg (phase_succ_ne_zero range'), phase_succ_toNat range']
  split
  · omega
  split <;> omega

/-- Every other step leaves the byte that the next step index calls for. -/
theorem byteInHand_succ {p : Phase} (range : p.toNat ≤ 96) (inside : p.toNat = 96 ∨ p.toNat % 32 ≠ 0) :
    byteInHand (p + 1#7) = byteInHand p := by
  have ne : p ≠ 0#7 := by rintro rfl; simp at inside
  rw [byteInHand, byteInHand, if_neg ne, if_neg (phase_succ_ne_zero range), phase_succ_toNat range]
  have group0 : p.toNat + 1 ≤ 32 ↔ p.toNat ≤ 32 := by omega
  have group1 : p.toNat + 1 ≤ 64 ↔ p.toNat ≤ 64 := by omega
  simp only [group0, group1]

theorem holdsByte_of_idle {s : State} (idle : s.regs.mode = .idle) : HoldsByte s := fun inFrame => absurd idle inFrame

/-- A change of state that keeps the index and the content of the byte in hand, or leaves the frame, keeps `HoldsByte`. -/
theorem holdsByte_congr {s t : State} (h : HoldsByte s) (cfg : t.cfg = s.cfg) (curByte : t.regs.curByte = s.regs.curByte)
    (index : byteInHand t.regs.phase = byteInHand s.regs.phase) (mode : t.regs.mode ≠ .idle → s.regs.mode ≠ .idle) :
    HoldsByte t := by
  intro inFrame
  rw [cfg, index, curByte]
  exact h (mode inFrame)

theorem phaseStep_holdsByte {s t : State} (holds : HoldsByte s) (h : phaseStep s = .next t) : HoldsByte t := by
  cases phaseStep_next h with
  | stop _ _ eq => subst eq; exact holdsByte_of_idle rfl
  | turnaround phase _ eq => subst eq; exact holdsByte_congr holds rfl rfl (by simp [phase, byteInHand]) id
  | even range _ b fetch eq =>
    subst eq
    obtain ⟨bit, group, read⟩ | ⟨inside, rfl⟩ := fetch
    · intro _
      simpa [byteInHand_succ_of_fetch bit group] using read
    · exact holdsByte_congr holds rfl rfl (byteInHand_succ range inside) id
  | odd range parity l r _ eq =>
    subst eq
    have range' : s.regs.phase.toNat ≤ 96 := by omega
    have inside : s.regs.phase.toNat % 32 ≠ 0 := by omega
    exact holdsByte_congr holds rfl rfl (byteInHand_succ range' (.inr inside)) id

theorem execTick_holdsByte {q n : Bool} {s t : State} (holds : HoldsByte s) (h : execTick q n s = .next t) :
    HoldsByte t := by
  obtain ⟨-, e⟩ | ⟨-, e⟩ := execTick_cases q n s <;> rw [e] at h
  · cases h; exact holds
  · exact phaseStep_holdsByte holds h

theorem execPress_holdsByte {x : Bool} {s t : State} (holds : HoldsByte s) (h : execPress x s = .next t) :
    HoldsByte t := by
  obtain ⟨-, e⟩ | ⟨-, b, read, e⟩ := execPress_cases x s <;> rw [e] at h <;> cases h
  · exact holds
  · intro _
    simpa [byteInHand] using read

theorem execRelease_holdsByte {x : Bool} {s t : State} (holds : HoldsByte s) (h : execRelease x s = .next t) :
    HoldsByte t := by
  cases h
  split
  · next transmitting => exact holdsByte_congr holds rfl rfl rfl (by simp [transmitting])
  · exact holds

theorem handleEvents_holdsByte {tick q n : Bool} {s t : State} (holds : HoldsByte s)
    (h : handleEvents tick q n s = .next t) : HoldsByte t :=
  handleEvents_keeps (fun e held => execTick_holdsByte held e) (fun e held => execPress_holdsByte held e)
    (fun e held => execRelease_holdsByte held e) h holds

theorem execCycle_holdsByte {s t : State} (holds : HoldsByte s) (h : execCycle s = .next t) : HoldsByte t := by
  obtain ⟨run, cnt, e, -⟩ := timerStep_next (s.setBtnQ s.pins.btnN)
  rw [execCycle_eq, e, andThen_next] at h
  have timed : HoldsByte ((s.setBtnQ s.pins.btnN).setTimer run cnt) := holdsByte_congr holds rfl rfl rfl id
  exact handleEvents_holdsByte timed h

theorem execReset_mode {s t : State} (h : execReset s = .next t) : t.regs.mode = .idle := by
  obtain ⟨b, -, e⟩ := execReset_next s
  rw [e] at h
  cases h
  split <;> rfl

/-! ### `gie` as the validity of the store (R26, R53) -/

theorem valid_of_read {m : Memory} {b : Byte} (h : m.read 0 = some b) : m.valid = b.getLsbD 7 := by
  simp [Memory.valid, h]

/-- RESET records the validity of the store in `gie`, whatever the state before it. -/
theorem execReset_gieRecordsValidity {s t : State} (h : execReset s = .next t) : GieRecordsValidity t := by
  have env := execReset_sameEnvironment h
  obtain ⟨b, read, e⟩ := execReset_next s
  rw [GieRecordsValidity, env.cfg, valid_of_read read]
  rw [e] at h
  cases h
  cases hb : b.getLsbD 7 <;> rfl

theorem execCycle_gieRecordsValidity {s t : State} (valid : GieRecordsValidity s) (h : execCycle s = .next t) :
    GieRecordsValidity t := by
  rw [GieRecordsValidity, execCycle_gie h, (execCycle_sameEnvironment h).cfg]
  exact valid

/-! ### The obligations of spec/10_state.md -/

/-- Settles O22: a cycle completes and restores the invariants; `btn_q` and `gie` by the frame of the handlers. -/
theorem cycleCompletesAndKeepsTheInvariant : Obligations.CycleCompletesAndKeepsTheInvariant := by
  intro s inv sendable
  obtain ⟨t, h⟩ := execCycle_completes inv sendable
  have env := execCycle_sameEnvironment h
  exact ⟨t, h, execCycle_inv inv h, execCycle_btnQ h, execCycle_gie h, env.cfg, env.stim, env.freeIx⟩

/-- Settles O33: RESET establishes the invariants and CYCLE keeps them. -/
theorem stepKeepsTheInvariants : Obligations.StepKeepsTheInvariants :=
  fun _ _ inv h => step_inv inv h

/-- Settles O36: the edge completes, keeps the invariants, and does not change the store (O31). -/
theorem sendableMachineNeverStops : Obligations.SendableMachineNeverStops := by
  intro s inv sendable
  obtain ⟨t, h⟩ := step_completes inv sendable
  obtain ⟨cfg, -⟩ := stepUsesOneInput s t h
  exact ⟨t, h, step_inv inv h, cfg ▸ sendable⟩

/-- Settles O37: RESET leaves the block Idle, and every part of a cycle keeps the byte in hand. The invariants are not
needed: a phase step of any index leaves the byte that the next index calls for. -/
theorem stepKeepsTheByteInHand : Obligations.StepKeepsTheByteInHand := by
  intro s t _ holds h
  obtain ⟨u, rfl, edge⟩ := step_eq_next.1 h
  have after : HoldsByte u := by
    obtain ⟨-, hr⟩ | ⟨-, hc⟩ := edge
    · exact holdsByte_of_idle (execReset_mode hr)
    · exact execCycle_holdsByte holds hc
  simpa [HoldsByte] using after

/-- Settles O30: the frame of every operation. -/
theorem onlyTheListedRegistersAreWritten : Obligations.OnlyTheListedRegistersAreWritten :=
  fun _ _ _ r h => exec_writesOnly h r

/-- Settles O38: RESET records the validity, and CYCLE changes neither `gie` nor the store. -/
theorem stepKeepsGieAsValidity : Obligations.StepKeepsGieAsValidity := by
  intro s t valid h
  obtain ⟨u, rfl, edge⟩ := step_eq_next.1 h
  have after : GieRecordsValidity u := by
    obtain ⟨-, hr⟩ | ⟨-, hc⟩ := edge
    · exact execReset_gieRecordsValidity hr
    · exact execCycle_gieRecordsValidity valid hc
  simpa [GieRecordsValidity] using after

/-- Settles O34: it is a live Idle state. -/
theorem resetStateMeetsTheInvariants : Obligations.ResetStateMeetsTheInvariants :=
  inv_of_idle rfl rfl rfl rfl rfl rfl rfl

end Sys2Proof.Machine

/-! PROOFS. The Code Store (spec/20_memory.md): nothing writes it (R60, R63), which of its bits a step sends (R55, R76),
when a clock edge reads it (R52, R57), and the length of a store that holds codes (R51, R52). -/

namespace Sys2Proof

/-! ### The layout of the store (R51) and megacode 0 (R54) -/

/-- A well-formed store holds some number of codes. -/
theorem Memory.exists_holdsCodes {m : Memory} (h : m.wellFormedStore = true) : ∃ n, m.holdsCodes n = true := by
  obtain ⟨n, -, codes⟩ := List.any_eq_true.1 h
  exact ⟨n, codes⟩

/-- What the layout of `n` codes fixes: the room for them and the 0x00 after the last. -/
theorem Memory.holdsCodes_end {m : Memory} {n : Nat} (h : m.holdsCodes n = true) :
    3 * n + 1 ≤ m.len ∧ m.read (3 * n) = some 0#8 := by
  simp only [Memory.holdsCodes, Bool.and_eq_true, decide_eq_true_eq, beq_iff_eq] at h
  obtain ⟨⟨room, -⟩, last⟩ := h
  exact ⟨room, last⟩

/-- The bits of three bytes put together, most significant byte first (R54). -/
theorem getLsbD_threeBytes (b0 b1 b2 : Byte) {i : Nat} (bit : i < 8) :
    (b0 ++ b1 ++ b2).getLsbD (16 + i) = b0.getLsbD i ∧ (b0 ++ b1 ++ b2).getLsbD (8 + i) = b1.getLsbD i ∧
      (b0 ++ b1 ++ b2).getLsbD i = b2.getLsbD i := by
  have past16 : ¬ 16 + i < 8 := by omega
  have past8 : ¬ 8 + i < 8 := by omega
  have second : 16 + i - 8 = 8 + i := by omega
  simp only [BitVec.getLsbD_append, bit, past16, past8, second, Nat.add_sub_cancel_left, if_true, if_false, and_self]

/-- The byte at offset `o` of a megacode is its bits `8 * (2 - o)` and up: the most significant byte comes first. -/
theorem Memory.getLsbD_of_megacode {m : Memory} {c : Megacode} {o i : Nat} {b : Byte} (code : m.megacode = some c)
    (offset : o ≤ 2) (byte : m.read o = some b) (bit : i < 8) : b.getLsbD i = c.getLsbD (8 * (2 - o) + i) := by
  unfold Memory.megacode at code
  split at code
  next b0 b1 b2 h0 h1 h2 =>
    cases code
    obtain ⟨bits0, bits1, bits2⟩ := getLsbD_threeBytes b0 b1 b2 bit
    obtain rfl | rfl | rfl : o = 0 ∨ o = 1 ∨ o = 2 := by omega
    · cases h0.symm.trans byte
      exact bits0.symm
    · cases h1.symm.trans byte
      exact bits1.symm
    · cases h2.symm.trans byte
      simpa using bits2.symm
  · cases code

end Sys2Proof

namespace Sys2Proof.Machine

/-! ### No operation touches the configuration or the inputs (R31, R60, R63) -/

theorem execPauseA_sameEnvironment {o : BitVec 2} {r : BitVec 3} {s t : State} (h : execPauseA o r s = .next t) :
    SameEnvironment s t := by
  unfold execPauseA at h
  obtain ⟨-, e⟩ | ⟨-, b, -, e⟩ | ⟨-, -, e⟩ := fetchByte_cases s o r (fun t => .next t.pause) <;> rw [e] at h <;> cases h
  · exact ⟨rfl, rfl, rfl⟩
  · exact ⟨rfl, rfl, rfl⟩

theorem execWindowB_sameEnvironment {o : BitVec 2} {r : BitVec 3} {s t : State} (h : execWindowB o r s = .next t) :
    SameEnvironment s t := by
  cases h
  split <;> exact ⟨rfl, rfl, rfl⟩

theorem execBoundary_sameEnvironment {s t : State} (h : execBoundary s = .next t) : SameEnvironment s t := by
  unfold execBoundary at h
  split at h <;> cases h <;> exact ⟨rfl, rfl, rfl⟩

theorem execHold_sameEnvironment {c : Count} {s t : State} (h : execHold c s = .next t) : SameEnvironment s t := by
  cases h
  split <;> exact ⟨rfl, rfl, rfl⟩

/-- Every operation that completes leaves the configuration and the inputs as they were. -/
theorem exec_sameEnvironment {i : Instr} {s t : State} (h : exec i s = .next t) : SameEnvironment s t := by
  cases i with
  | pauseA o r => exact execPauseA_sameEnvironment h
  | windowA o r => cases h; exact ⟨rfl, rfl, rfl⟩
  | pauseB o r => cases h; exact ⟨rfl, rfl, rfl⟩
  | windowB o r => exact execWindowB_sameEnvironment (o := o) h
  | blank => cases h; exact ⟨rfl, rfl, rfl⟩
  | boundary => exact execBoundary_sameEnvironment h
  | rsvdStep x => cases h
  | press x => exact execPress_sameEnvironment (x := x) h
  | release x => exact execRelease_sameEnvironment (x := x) h
  | tick q n => exact execTick_sameEnvironment (q := q) (n := n) h
  | noevent q => cases h; exact .refl s
  | sample q n => cases h; exact ⟨rfl, rfl, rfl⟩
  | armShort p => cases h; exact ⟨rfl, rfl, rfl⟩
  | armLong p => cases h; exact ⟨rfl, rfl, rfl⟩
  | count c => cases h; exact ⟨rfl, rfl, rfl⟩
  | expire => cases h; exact ⟨rfl, rfl, rfl⟩
  | hold c => exact execHold_sameEnvironment (c := c) h
  | cycle => exact execCycle_sameEnvironment h
  | reset => exact execReset_sameEnvironment h
  | wait => cases h; exact .refl s

/-! ### The reads among the effects of an event-level run (R52, R57, R107)

Only a phase step reads, once, and it leaves the block in a frame; inside a frame only a Tick runs a phase step. A cycle
has at most one Tick and handles it first, so nothing reads after the first read. -/

/-- The offset an effect reads. -/
def Effect.readOffset : Effect → Option Nat
  | .read o => some o
  | .out _ _ => none
  | .arm _ => none

/-- The offsets a list of effects reads, in order. -/
def readsOf (fx : List Effect) : List Nat := fx.filterMap Effect.readOffset

@[simp] theorem readsOf_nil : readsOf [] = [] := rfl
@[simp] theorem readsOf_read (o : Nat) (fx : List Effect) : readsOf (.read o :: fx) = o :: readsOf fx := rfl
@[simp] theorem readsOf_out (l r : Bool) (fx : List Effect) : readsOf (.out l r :: fx) = readsOf fx := rfl
@[simp] theorem readsOf_arm (i : Interval) (fx : List Effect) : readsOf (.arm i :: fx) = readsOf fx := rfl
@[simp] theorem readsOf_append (fx fx2 : List Effect) : readsOf (fx ++ fx2) = readsOf fx ++ readsOf fx2 :=
  List.filterMap_append

/-- What a clock edge reads: offset 0 at a reset, nothing in a refused cycle, else the reads of the cycle's events. -/
theorem codeStoreReads_cases (s : State) : s.codeStoreReads = [0] ∨ s.codeStoreReads = [] ∨
    ∃ e fx, engineRun s.cfg.cs s.engineState s.cycleEvents = .ok (e, fx) ∧ s.codeStoreReads = readsOf fx := by
  unfold State.codeStoreReads
  split
  · exact .inl rfl
  split
  · exact .inr (.inl rfl)
  next e fx run => exact .inr (.inr ⟨e, fx, run, rfl⟩)

/-- A bit's step reads nothing, or the one byte of its group, and does not change the mode. -/
theorem engineBitStep_reads {cs : Memory} {e e' : EngineState} {p : Nat} {fx : List Effect}
    (h : engineBitStep cs e p = .ok (e', fx)) : (readsOf fx = [] ∨ readsOf fx = [p / 4 / 8]) ∧ e'.mode = e.mode := by
  unfold engineBitStep at h
  dsimp only at h
  repeat' split at h
  all_goals cases h <;> simp

/-- So does any phase step that reads, and the offset is at most 2. -/
theorem engineStep_reads {cs : Memory} {e e' : EngineState} {p : Nat} {fx : List Effect}
    (h : engineStep cs e p = .ok (e', fx)) :
    readsOf fx = [] ∨ (∃ o, o ≤ 2 ∧ readsOf fx = [o]) ∧ e'.mode = e.mode := by
  unfold engineStep at h
  split at h
  next range =>
    obtain ⟨noRead | oneRead, mode⟩ := engineBitStep_reads h
    · exact .inl noRead
    · exact .inr ⟨⟨p / 4 / 8, by omega, oneRead⟩, mode⟩
  repeat' split at h
  all_goals cases h <;> exact .inl rfl

/-- A handler reads nothing, or one byte at an offset of at most 2, which leaves the block in a frame. -/
theorem engine_reads {cs : Memory} {e e' : EngineState} {ev : Event} {fx : List Effect}
    (h : engine cs e ev = .ok (e', fx)) :
    readsOf fx = [] ∨ (∃ o, o ≤ 2 ∧ readsOf fx = [o]) ∧ e'.mode ≠ .idle := by
  cases ev with
  | press =>
    rw [engine] at h
    split at h
    · exact (engineStep_reads h).imp_right fun ⟨oneRead, mode⟩ => ⟨oneRead, by simp [mode]⟩
    · cases h; exact .inl rfl
  | release => cases h; exact .inl rfl
  | tick =>
    rw [engine] at h
    split at h
    · cases h; exact .inl rfl
    next inFrame => exact (engineStep_reads h).imp_right fun ⟨oneRead, mode⟩ => ⟨oneRead, mode ▸ inFrame⟩

/-- Inside a frame a button event reads nothing and does not end the frame. -/
theorem engine_button_inFrame {cs : Memory} {e e' : EngineState} {ev : Event} {fx : List Effect}
    (inFrame : e.mode ≠ .idle) (button : ev ≠ .tick) (h : engine cs e ev = .ok (e', fx)) :
    readsOf fx = [] ∧ e'.mode ≠ .idle := by
  cases ev with
  | press =>
    rw [engine, if_neg inFrame] at h
    cases h
    exact ⟨rfl, inFrame⟩
  | release =>
    cases h
    refine ⟨rfl, ?_⟩
    split
    · simp
    · exact inFrame
  | tick => exact absurd rfl button

/-- A completed run of several events is the first event's handler and a completed run of the others. -/
theorem engineRun_cons_ok {cs : Memory} {e e' : EngineState} {ev : Event} {evs : List Event} {fx : List Effect}
    (h : engineRun cs e (ev :: evs) = .ok (e', fx)) :
    ∃ e1 fx1 fx2, engine cs e ev = .ok (e1, fx1) ∧ engineRun cs e1 evs = .ok (e', fx2) ∧ fx = fx1 ++ fx2 := by
  rw [engineRun] at h
  split at h
  · cases h
  next e1 fx1 first =>
    split at h
    · cases h
    next e2 fx2 rest =>
      cases h
      exact ⟨e1, fx1, fx2, first, rest, rfl⟩

/-- Button events inside a frame read nothing, however many there are. -/
theorem engineRun_reads_inFrame {cs : Memory} {evs : List Event} {e e' : EngineState} {fx : List Effect}
    (inFrame : e.mode ≠ .idle) (buttons : Event.tick ∉ evs) (h : engineRun cs e evs = .ok (e', fx)) :
    readsOf fx = [] := by
  induction evs generalizing e fx with
  | nil => cases h; rfl
  | cons ev evs ih =>
    obtain ⟨e1, fx1, fx2, first, rest, rfl⟩ := engineRun_cons_ok h
    obtain ⟨notTick, buttons⟩ := not_or.1 (mt List.mem_cons.2 buttons)
    obtain ⟨noRead, inFrame⟩ := engine_button_inFrame inFrame (Ne.symm notTick) first
    rw [readsOf_append, noRead, ih inFrame buttons rest, List.append_nil]

/-- A run whose only Tick, if any, comes first reads at most one byte, at an offset of at most 2. -/
theorem engineRun_reads {cs : Memory} {evs : List Event} {e e' : EngineState} {fx : List Effect}
    (tickFirst : Event.tick ∉ evs.tail) (h : engineRun cs e evs = .ok (e', fx)) :
    readsOf fx = [] ∨ ∃ o, o ≤ 2 ∧ readsOf fx = [o] := by
  induction evs generalizing e fx with
  | nil => cases h; exact .inl rfl
  | cons ev evs ih =>
    obtain ⟨e1, fx1, fx2, first, rest, rfl⟩ := engineRun_cons_ok h
    rw [readsOf_append]
    obtain noRead | ⟨⟨o, offset, oneRead⟩, inFrame⟩ := engine_reads first
    · rw [noRead, List.nil_append]
      exact ih (fun later => tickFirst (List.mem_of_mem_tail later)) rest
    · rw [oneRead, engineRun_reads_inFrame inFrame tickFirst rest, List.append_nil]
      exact .inr ⟨o, offset, rfl⟩

/-- A cycle handles its Tick first (R167). -/
theorem tick_notMem_cycleEvents_tail (s : State) : Event.tick ∉ s.cycleEvents.tail := by
  unfold State.cycleEvents
  cases s.regs.gie <;> cases s.tickNow <;> cases s.regs.btnQ <;> cases s.pins.btnN <;> decide

/-! ### The obligations of spec/20_memory.md -/

/-- Settles O29: the store is part of the configuration, which every operation leaves alone. -/
theorem noOperationWritesTheCodeStore : Obligations.NoOperationWritesTheCodeStore := by
  intro i s t h
  have env := exec_sameEnvironment h
  exact ⟨env.cfg, env.stim, env.freeIx, fun o => by rw [env.cfg]⟩

/-- Settles O50: with `p = 32 * o + 4 * r + q`, bit `7 - r` of byte `o` is bit `8 * (2 - o) + (7 - r) = 23 - p / 4`. -/
theorem bitSentIsCodeBit23MinusB : Obligations.BitSentIsCodeBit23MinusB := by
  intro cs m p b code range byte
  have o := phaseO_toNat p
  have r := phaseR_toNat p
  rw [bitValue, codeBit, codeBitNumber, Memory.getLsbD_of_megacode code (by omega) byte (by omega)]
  congr 1
  omega

/-- Settles O51: a reset reads offset 0, and a cycle's events read at most once, since its Tick comes first. -/
theorem atMostOneReadOfOffsetsZeroToTwo : Obligations.AtMostOneReadOfOffsetsZeroToTwo := by
  intro s
  have reads : s.codeStoreReads = [] ∨ ∃ o, o ≤ 2 ∧ s.codeStoreReads = [o] := by
    obtain atReset | refused | ⟨e, fx, run, eq⟩ := codeStoreReads_cases s
    · exact .inr ⟨0, by omega, atReset⟩
    · exact .inl refused
    · rw [eq]
      exact engineRun_reads (tick_notMem_cycleEvents_tail s) run
  obtain noRead | ⟨o, offset, oneRead⟩ := reads
  · simp [noRead]
  · simp [oneRead, offset]

/-- Settles O52: a store of no code has 0x00 at offset 0, which is not valid; one code and the byte after it are four
bytes. -/
theorem wellFormedValidStoreHasFourBytes : Obligations.WellFormedValidStoreHasFourBytes := by
  intro cs wellFormed valid
  obtain ⟨n, codes⟩ := Memory.exists_holdsCodes wellFormed
  obtain ⟨room, last⟩ := Memory.holdsCodes_end codes
  cases n with
  | zero => simp [valid_of_read last] at valid
  | succ n => omega

end Sys2Proof.Machine

/-! PROOFS. Encodings (spec/30_encoding.md): the round trip between operations and the words of their selecting values
(R73, R74, R80, R84, R87), the interval each step arms (R75), and the schedule of a frame (R79). -/

namespace Sys2Proof

open Machine

/-! ### Words and their bytes -/

@[simp] theorem length_bytesOfWord (n w : Nat) : (bytesOfWord n w).length = n := by
  induction n generalizing w with
  | zero => rfl
  | succ n ih => simp [bytesOfWord, ih]

theorem wordOfBytes_bytesOfWord {n w : Nat} (fits : w < 256 ^ n) : wordOfBytes (bytesOfWord n w) = w := by
  induction n generalizing w with
  | zero =>
    rw [pow_zero, Nat.lt_one_iff] at fits
    exact fits.symm
  | succ n ih =>
    have high : w / 256 < 256 ^ n := by rw [pow_succ] at fits; omega
    rw [bytesOfWord, wordOfBytes, ih high, BitVec.toNat_ofNat]
    omega

theorem bytesOfWord_wordOfBytes (bytes : List Byte) : bytesOfWord bytes.length (wordOfBytes bytes) = bytes := by
  induction bytes with
  | nil => rfl
  | cons b bs ih =>
    have high : (b.toNat + 256 * wordOfBytes bs) / 256 = wordOfBytes bs := by omega
    have low : BitVec.ofNat 8 (b.toNat + 256 * wordOfBytes bs) = b := by
      apply BitVec.eq_of_toNat_eq
      rw [BitVec.toNat_ofNat]
      omega
    rw [List.length_cons, wordOfBytes, bytesOfWord, high, low, ih]

/-- The bytes of a selecting value hold all its bits. -/
theorem two_pow_selectorWidth_le (sel : Selector) : 2 ^ selectorWidth sel ≤ 256 ^ selectorBytes sel := by
  cases sel <;> decide

/-- What it takes for bytes to decode: the right number of them, no stray bit, and a word that names operations. -/
theorem decode_eq_ok {sel : Selector} {bytes : List Byte} {l : List Instr} :
    decode sel bytes = .ok l ↔ bytes.length = selectorBytes sel ∧ wordOfBytes bytes < 2 ^ selectorWidth sel ∧
      decodeWord sel (wordOfBytes bytes) = .ok l := by
  unfold decode
  split
  · next wrong => simp [wrong]
  split
  · next length stray => simp [Nat.not_lt.2 stray]
  · next length fits => simp [not_not.1 length, not_le.1 fits]

/-- Every operation's word fits its selecting value. -/
theorem encodeWord_lt (i : Instr) : encodeWord i < 2 ^ selectorWidth (selectorOf i) := by
  cases i with
  | pauseA o r => exact Laws.EncodeFits.pauseA o r
  | windowA o r => exact Laws.EncodeFits.windowA o r
  | pauseB o r => exact Laws.EncodeFits.pauseB o r
  | windowB o r => exact Laws.EncodeFits.windowB o r
  | blank => exact Laws.EncodeFits.blank
  | boundary => exact Laws.EncodeFits.boundary
  | rsvdStep x => exact Laws.EncodeFits.rsvdStep x
  | press t => exact Laws.EncodeFits.press t
  | release t => exact Laws.EncodeFits.release t
  | tick q n => exact Laws.EncodeFits.tick q n
  | noevent q => exact Laws.EncodeFits.noevent q
  | sample q n => exact Laws.EncodeFits.sample q n
  | armShort p => exact Laws.EncodeFits.armShort p
  | armLong p => exact Laws.EncodeFits.armLong p
  | count c => exact Laws.EncodeFits.count c
  | expire => exact Laws.EncodeFits.expire
  | hold c => exact Laws.EncodeFits.hold c
  | cycle => exact Laws.EncodeFits.cycle
  | reset => exact Laws.EncodeFits.reset
  | wait => exact Laws.EncodeFits.wait

/-- An operation's bytes are decoded as its word. -/
theorem decode_encode_eq_ok {i : Instr} {l : List Instr} :
    decode (selectorOf i) (encode i) = .ok l ↔ decodeWord (selectorOf i) (encodeWord i) = .ok l := by
  have fits := encodeWord_lt i
  have word : wordOfBytes (encode i) = encodeWord i :=
    wordOfBytes_bytesOfWord (fits.trans_le (two_pow_selectorWidth_le _))
  have length : (encode i).length = selectorBytes (selectorOf i) := length_bytesOfWord _ _
  rw [decode_eq_ok, word]
  exact ⟨fun ⟨_, _, names⟩ => names, fun names => ⟨length, fits, names⟩⟩

/-! ### The step index and its fields (R73, R74) -/

/-- Everything step selection can answer, each with its guard. -/
theorem decodePhase_cases (p : Phase) :
    (p = 96#7 ∧ decodePhase p = .blank) ∨ (p = 97#7 ∧ decodePhase p = .boundary) ∨
    (98 ≤ p.toNat ∧ decodePhase p = .rsvdStep (p.extractLsb' 0 5)) ∨
    (p.toNat ≤ 95 ∧
      ((phaseQ p = 0#2 ∧ decodePhase p = .pauseA (phaseO p) (phaseR p)) ∨
       (phaseQ p = 1#2 ∧ decodePhase p = .windowA (phaseO p) (phaseR p)) ∨
       (phaseQ p = 2#2 ∧ decodePhase p = .pauseB (phaseO p) (phaseR p)) ∨
       (phaseQ p = 3#2 ∧ decodePhase p = .windowB (phaseO p) (phaseR p)))) := by
  unfold decodePhase
  split
  · next h => exact .inl ⟨h, rfl⟩
  split
  · next h => exact .inr (.inl ⟨h, rfl⟩)
  split
  · next h => exact .inr (.inr (.inl ⟨h, rfl⟩))
  next h96 h97 h98 =>
  refine .inr (.inr (.inr ⟨by bv_omega, ?_⟩))
  split
  · next q => exact .inl ⟨q, rfl⟩
  split
  · next q => exact .inr (.inl ⟨q, rfl⟩)
  split
  · next q => exact .inr (.inr (.inl ⟨q, rfl⟩))
  · exact .inr (.inr (.inr ⟨by bv_omega, rfl⟩))

section
variable (o : BitVec 2) (r : BitVec 3) (q : BitVec 2)

@[simp] theorem phaseO_append : phaseO (o ++ r ++ q) = o := by
  rw [phaseO, BitVec.extractLsb'_append_eq_of_le (by decide)]
  exact BitVec.extractLsb'_append_eq_left

@[simp] theorem phaseR_append : phaseR (o ++ r ++ q) = r := by
  rw [phaseR, BitVec.extractLsb'_append_eq_of_le (by decide)]
  exact BitVec.extractLsb'_append_eq_right

@[simp] theorem phaseQ_append : phaseQ (o ++ r ++ q) = q := BitVec.extractLsb'_append_eq_right

theorem append_le_95 (bit : o ≠ 3#2) : (o ++ r ++ q).toNat ≤ 95 := by
  have offset := phaseO_toNat (o ++ r ++ q)
  rw [phaseO_append] at offset
  bv_omega
end

theorem append_phaseFields (p : Phase) : phaseO p ++ phaseR p ++ phaseQ p = p := by
  rw [phaseO, phaseR, BitVec.extractLsb'_append_extractLsb'_eq_extractLsb' (start₁ := 2) (len₁ := 3) rfl]
  exact BitVec.extractLsb'_append_extractLsb'

/-- The words of a bit's four steps (R73, R74). -/
theorem decodePhase_append {o : BitVec 2} (bit : o ≠ 3#2) (r : BitVec 3) :
    decodePhase (o ++ r ++ 0#2) = .pauseA o r ∧ decodePhase (o ++ r ++ 1#2) = .windowA o r ∧
      decodePhase (o ++ r ++ 2#2) = .pauseB o r ∧ decodePhase (o ++ r ++ 3#2) = .windowB o r := by
  have step (q : BitVec 2) : decodePhase (o ++ r ++ q) =
      if q = 0#2 then .pauseA o r else if q = 1#2 then .windowA o r
      else if q = 2#2 then .pauseB o r else .windowB o r := by
    have range := append_le_95 o r q bit
    rw [decodePhase, if_neg (by bv_omega), if_neg (by bv_omega), if_neg (by bv_omega), phaseO_append, phaseR_append,
      phaseQ_append]
  exact ⟨step 0#2, step 1#2, step 2#2, step 3#2⟩

/-- The words of the reserved steps. -/
theorem decodePhase_reserved : ∀ x : BitVec 5, 2#5 ≤ x → decodePhase (3#2 ++ x) = .rsvdStep x := by decide

/-- The intervals that the words of a frame's steps arm (R73 field `s`, R75). -/
theorem decodeArm_append : ∀ p : BitVec 6, p ≤ 48#6 →
    decodeArm (p ++ 1#1) = .ok (.armShort p) ∧ decodeArm (p ++ 0#1) = .ok (.armLong p) := by decide

/-! ### The timer pair (R153 to R155) -/

theorem decodeTimer_append (run : Bool) (c : Count) : decodeTimer (BitVec.ofBool run ++ c) =
    if run then if c = 1#16 then .expire else if c = 0#16 then .hold 0#16 else .count c else .hold c := by
  have bit : (BitVec.ofBool run ++ c).getLsbD 16 = run := by rw [BitVec.getLsbD_append]; simp
  have cnt : (BitVec.ofBool run ++ c).extractLsb' 0 16 = c := BitVec.extractLsb'_append_eq_right
  rw [decodeTimer, cnt, bit]

/-- A count of 2 or more is neither of the pairs that EXPIRE and the exception of log 8 take. -/
theorem decodeTimer_count {c : Count} (two : 2#16 ≤ c) : decodeTimer (1#1 ++ c) = .count c := by
  have ne1 : c ≠ 1#16 := by bv_omega
  have ne0 : c ≠ 0#16 := by bv_omega
  simpa [ne1, ne0] using decodeTimer_append true c

theorem decodeTimer_hold (c : Count) : decodeTimer (0#1 ++ c) = .hold c := decodeTimer_append false c

theorem exists_timerPair (w : BitVec 17) : ∃ run c, w = BitVec.ofBool run ++ (c : Count) := by
  have bit : ∀ b : BitVec 1, BitVec.ofBool (b == 1#1) = b := by decide
  refine ⟨w.extractLsb' 16 1 == 1#1, w.extractLsb' 0 16, ?_⟩
  rw [bit]
  exact (BitVec.extractLsb'_append_extractLsb' (w := 1) (len := 16) (x := w)).symm

/-! ### What a selecting value names, by its decoder (R87) -/

theorem decodeWord_step (p : Phase) : decodeWord .step p.toNat = .ok [decodePhase p] := by simp [decodeWord]

theorem decodeWord_arm (p : Phase) : decodeWord .arm p.toNat = (decodeArm p).map fun i => [i] := by simp [decodeWord]

theorem decodeWord_event (ev : BitVec 3) : decodeWord .event ev.toNat = .ok (decodeEvent true ev) := by
  simp [decodeWord]

theorem decodeWord_button (w : BitVec 2) : decodeWord .button w.toNat = .ok [decodeButton w] := by simp [decodeWord]

theorem decodeWord_timer (w : BitVec 17) : decodeWord .timer w.toNat = .ok [decodeTimer w] := by simp [decodeWord]

theorem decodeWord_resetLine (b : BitVec 1) : decodeWord .resetLine b.toNat = .ok [decodeReset b.msb] := by
  simp [decodeWord]

theorem decodeWord_mode (w : BitVec 2) : decodeWord .mode w.toNat = (decodeMode w).map fun i => [i] := by
  simp [decodeWord]

/-! ### From operations to words (R87) -/

/-- A well-formed operation that is no event is all that its word names. -/
theorem decodeWord_encodeWord {i : Instr} (wf : wellFormed i = true) (noEvent : selectorOf i ≠ .event) :
    decodeWord (selectorOf i) (encodeWord i) = .ok [i] := by
  cases i with
  | pauseA o r =>
    obtain ⟨step, -, -, -⟩ := decodePhase_append (o := o) (by simpa [wellFormed] using wf) r
    rw [selectorOf, encodeWord, decodeWord_step, step]
  | windowA o r =>
    obtain ⟨-, step, -, -⟩ := decodePhase_append (o := o) (by simpa [wellFormed] using wf) r
    rw [selectorOf, encodeWord, decodeWord_step, step]
  | pauseB o r =>
    obtain ⟨-, -, step, -⟩ := decodePhase_append (o := o) (by simpa [wellFormed] using wf) r
    rw [selectorOf, encodeWord, decodeWord_step, step]
  | windowB o r =>
    obtain ⟨-, -, -, step⟩ := decodePhase_append (o := o) (by simpa [wellFormed] using wf) r
    rw [selectorOf, encodeWord, decodeWord_step, step]
  | blank => decide
  | boundary => decide
  | rsvdStep x =>
    rw [selectorOf, encodeWord, decodeWord_step, decodePhase_reserved x (by simpa [wellFormed] using wf)]
  | press t => exact absurd rfl noEvent
  | release t => exact absurd rfl noEvent
  | tick q n => exact absurd rfl noEvent
  | noevent q => exact absurd rfl noEvent
  | sample q n => revert q n; decide
  | armShort p =>
    obtain ⟨short, -⟩ := decodeArm_append p (by simpa [wellFormed] using wf)
    rw [selectorOf, encodeWord, decodeWord_arm, short, Except.map]
  | armLong p =>
    obtain ⟨-, long⟩ := decodeArm_append p (by simpa [wellFormed] using wf)
    rw [selectorOf, encodeWord, decodeWord_arm, long, Except.map]
  | count c =>
    rw [selectorOf, encodeWord, decodeWord_timer, decodeTimer_count (by simpa [wellFormed] using wf)]
  | expire => decide
  | hold c => rw [selectorOf, encodeWord, decodeWord_timer, decodeTimer_hold]
  | cycle => decide
  | reset => decide
  | wait => decide

/-- An event operation is among those that its word names. -/
theorem exists_decodeWord_encodeWord_of_event {i : Instr} (event : selectorOf i = .event) :
    ∃ l, decodeWord (selectorOf i) (encodeWord i) = .ok l ∧ i ∈ l := by
  refine ⟨decodeEvent true (BitVec.ofNat 3 (encodeWord i)), by rw [event]; rfl, ?_⟩
  cases i with
  | press t => revert t; decide
  | release t => revert t; decide
  | tick q n => revert q n; decide
  | noevent q => revert q; decide
  | _ => cases event

/-! ### From words to operations (R84, R87, R155) -/

/-- The operation is well formed, belongs to the selecting value and has the given word, but for the word of the timer
pair `tmr_run = 1, tmr_cnt = 0` (log 8). -/
structure NamedBy (sel : Selector) (w : Nat) (i : Instr) : Prop where
  wf       : wellFormed i = true
  selector : selectorOf i = sel
  word     : ¬ (sel = .timer ∧ w = 0x10000) → encodeWord i = w

/-- A step index is made of its fields again (R73); up to 95 the offset is one of a code byte. -/
theorem decodePhase_namedBy (p : Phase) : NamedBy .step p.toNat (decodePhase p) := by
  have bit (range : p.toNat ≤ 95) : (phaseO p != 3#2) = true := by
    have offset := phaseO_toNat p
    simp only [bne_iff_ne]
    bv_omega
  have fields := append_phaseFields p
  have reserved : ∀ p : Phase, 98 ≤ p.toNat →
      2#5 ≤ p.extractLsb' 0 5 ∧ (3#2 ++ p.extractLsb' 0 5).toNat = p.toNat := by decide
  obtain ⟨rfl, e⟩ | ⟨rfl, e⟩ | ⟨range, e⟩ | ⟨range, ⟨q, e⟩ | ⟨q, e⟩ | ⟨q, e⟩ | ⟨q, e⟩⟩ := decodePhase_cases p <;> rw [e]
  · exact ⟨rfl, rfl, fun _ => rfl⟩
  · exact ⟨rfl, rfl, fun _ => rfl⟩
  · obtain ⟨low, word⟩ := reserved p range
    exact ⟨decide_eq_true low, rfl, fun _ => word⟩
  all_goals
    rw [q] at fields
    exact ⟨bit range, rfl, fun _ => congrArg BitVec.toNat fields⟩

theorem decodeArm_namedBy {p : Phase} {i : Instr} (names : decodeArm p = .ok i) : NamedBy .arm p.toNat i := by
  have fields : ∀ p : Phase, ¬ 98#7 ≤ p →
      p.extractLsb' 1 6 ≤ 48#6 ∧ p.extractLsb' 1 6 ++ BitVec.ofBool (p.getLsbD 0) = p := by decide
  unfold decodeArm at names
  split at names
  · cases names
  next range =>
  obtain ⟨pair, word⟩ := fields p range
  split at names <;> cases names
  · next odd =>
    rw [odd] at word
    exact ⟨decide_eq_true pair, rfl, fun _ => congrArg BitVec.toNat word⟩
  · next even =>
    rw [Bool.not_eq_true] at even
    rw [even] at word
    exact ⟨decide_eq_true pair, rfl, fun _ => congrArg BitVec.toNat word⟩

theorem decodeEvent_namedBy {ev : BitVec 3} {i : Instr} (mem : i ∈ decodeEvent true ev) :
    NamedBy .event ev.toNat i := by
  have table : ∀ ev : BitVec 3, ∀ i ∈ decodeEvent true ev,
      wellFormed i = true ∧ selectorOf i = .event ∧ encodeWord i = ev.toNat := by decide
  obtain ⟨wf, selector, word⟩ := table ev i mem
  exact ⟨wf, selector, fun _ => word⟩

theorem decodeButton_namedBy (w : BitVec 2) : NamedBy .button w.toNat (decodeButton w) :=
  ⟨rfl, rfl, fun _ => by revert w; decide⟩

/-- The timer pair is the run bit and the count; a running timer at 0 is the exception. -/
theorem decodeTimer_namedBy (w : BitVec 17) : NamedBy .timer w.toNat (decodeTimer w) := by
  obtain ⟨run, c, rfl⟩ := exists_timerPair w
  cases run with
  | false =>
    have hold : decodeTimer (BitVec.ofBool false ++ c) = .hold c := decodeTimer_hold c
    rw [hold]
    exact ⟨rfl, rfl, fun _ => rfl⟩
  | true =>
    rw [decodeTimer_append, if_pos rfl]
    split
    · next one => exact ⟨rfl, rfl, fun _ => by rw [one]; rfl⟩
    split
    · next zero => exact ⟨rfl, rfl, fun other => absurd ⟨rfl, by rw [zero]; rfl⟩ other⟩
    · next ne1 ne0 =>
      have two : 2#16 ≤ c := by bv_omega
      exact ⟨decide_eq_true two, rfl, fun _ => rfl⟩

theorem decodeReset_namedBy (b : BitVec 1) : NamedBy .resetLine b.toNat (decodeReset b.msb) := by
  have table : ∀ b : BitVec 1, wellFormed (decodeReset b.msb) = true ∧ selectorOf (decodeReset b.msb) = .resetLine ∧
      encodeWord (decodeReset b.msb) = b.toNat := by decide
  obtain ⟨wf, selector, word⟩ := table b
  exact ⟨wf, selector, fun _ => word⟩

theorem decodeMode_namedBy {w : BitVec 2} {i : Instr} (names : decodeMode w = .ok i) : NamedBy .mode w.toNat i := by
  unfold decodeMode at names
  split at names
  · next idle =>
    cases names
    exact ⟨rfl, rfl, fun _ => by rw [idle]; rfl⟩
  split at names <;> cases names

theorem mem_of_map_singleton {x : Except Reject Instr} {l : List Instr} {i : Instr}
    (names : (x.map fun j => [j]) = .ok l) (mem : i ∈ l) : x = .ok i := by
  cases x with
  | error r => cases names
  | ok j =>
    cases names
    rw [List.mem_singleton.1 mem]

/-- Every operation that a word of the right width names has that word. -/
theorem decodeWord_namedBy {sel : Selector} {w : Nat} {l : List Instr} {i : Instr} (fits : w < 2 ^ selectorWidth sel)
    (names : decodeWord sel w = .ok l) (mem : i ∈ l) : NamedBy sel w i := by
  obtain ⟨v, rfl⟩ : ∃ v : BitVec (selectorWidth sel), w = v.toNat := ⟨.ofNatLT w fits, rfl⟩
  have only {j : Instr} (single : Except.ok (ε := Reject) [j] = .ok l) : j = i := by
    cases single
    exact (List.mem_singleton.1 mem).symm
  cases sel with
  | step => exact only ((decodeWord_step v).symm.trans names) ▸ decodePhase_namedBy v
  | arm => exact decodeArm_namedBy (mem_of_map_singleton ((decodeWord_arm v).symm.trans names) mem)
  | event =>
    cases (decodeWord_event v).symm.trans names
    exact decodeEvent_namedBy mem
  | button => exact only ((decodeWord_button v).symm.trans names) ▸ decodeButton_namedBy v
  | timer => exact only ((decodeWord_timer v).symm.trans names) ▸ decodeTimer_namedBy v
  | resetLine => exact only ((decodeWord_resetLine v).symm.trans names) ▸ decodeReset_namedBy v
  | mode => exact decodeMode_namedBy (mem_of_map_singleton ((decodeWord_mode v).symm.trans names) mem)

/-! ### The obligations -/

/-- Settles O58: the bytes of an operation hold its word, which names it, alone unless it is an event. -/
theorem decodeReadsEveryEncodedOperation : Obligations.DecodeReadsEveryEncodedOperation := by
  intro i wf
  by_cases event : selectorOf i = .event
  · obtain ⟨l, names, mem⟩ := exists_decodeWord_encodeWord_of_event event
    exact ⟨l, decode_encode_eq_ok.2 names, mem, fun noEvent => absurd event noEvent⟩
  · exact ⟨[i], decode_encode_eq_ok.2 (decodeWord_encodeWord wf event), List.mem_singleton.2 rfl, fun _ => rfl⟩

/-- Settles O59: the bytes are those of their word, and each operation that the word names has that word. -/
theorem encodeGivesBackEveryDecodedWord : Obligations.EncodeGivesBackEveryDecodedWord := by
  intro sel bytes l i decoded mem
  obtain ⟨length, fits, names⟩ := decode_eq_ok.1 decoded
  obtain ⟨wf, rfl, word⟩ := decodeWord_namedBy fits names mem
  have back : bytesOfWord (selectorBytes (selectorOf i)) (wordOfBytes bytes) = bytes :=
    length ▸ bytesOfWord_wordOfBytes bytes
  refine ⟨wf, rfl, fun other => ?_⟩
  have ordinary : ¬ (selectorOf i = .timer ∧ wordOfBytes bytes = 0x10000) := by
    rintro ⟨timer, pair⟩
    rw [timer, pair] at back
    exact other ⟨timer, back.symm⟩
  rw [encode, word ordinary, back]

/-- Settles O28: one byte, no stray bit, and bit 0 is `rst`. -/
theorem everyClockEdgeDecodes : Obligations.EveryClockEdgeDecodes := by
  intro s
  cases s.pins.rst with
  | false => exact decode_eq_ok.2 ⟨rfl, by decide, rfl⟩
  | true => exact decode_eq_ok.2 ⟨rfl, by decide, rfl⟩

/-- Settles O55: `4 * b + q` is the word of offset `b / 8`, bit index `b % 8` and quarter `q`. -/
theorem stepIndexSelectsTheStep : Obligations.StepIndexSelectsTheStep := by
  have words : ∀ b : Fin 24, BitVec.ofNat 2 (b.val / 8) ≠ 3#2 ∧
      BitVec.ofNat 7 (4 * b.val) = BitVec.ofNat 2 (b.val / 8) ++ BitVec.ofNat 3 (b.val % 8) ++ 0#2 ∧
      BitVec.ofNat 7 (4 * b.val + 1) = BitVec.ofNat 2 (b.val / 8) ++ BitVec.ofNat 3 (b.val % 8) ++ 1#2 ∧
      BitVec.ofNat 7 (4 * b.val + 2) = BitVec.ofNat 2 (b.val / 8) ++ BitVec.ofNat 3 (b.val % 8) ++ 2#2 ∧
      BitVec.ofNat 7 (4 * b.val + 3) = BitVec.ofNat 2 (b.val / 8) ++ BitVec.ofNat 3 (b.val % 8) ++ 3#2 := by decide
  refine ⟨fun b => ?_, rfl, rfl, decodePhase_reserved⟩
  obtain ⟨bit, pauseA, windowA, pauseB, windowB⟩ := words b
  rw [pauseA, windowA, pauseB, windowB]
  exact decodePhase_append bit _

/-- Settles O56: the bits of the vector are its three parts, and the eight rows are the table of R80. -/
theorem eventVectorTable : Obligations.EventVectorTable := by
  refine ⟨fun s => ⟨?_, eventVector_btnQ s, eventVector_btnN s⟩, by decide⟩
  rw [eventVector_tick, State.tickNow, Bool.decide_and, Bool.decide_eq_true]
  rfl

/-- Settles O57: each word has its selecting value's length and no stray bit, and names the operation. -/
theorem writtenOutWordsDecode : Obligations.WrittenOutWordsDecode := by
  unfold Obligations.WrittenOutWordsDecode
  decide

end Sys2Proof

namespace Sys2Proof.Machine

/-! ### The interval a phase step arms (R75) -/

/-- The step that the step index decodes to is the phase step (R120). -/
theorem exec_decodePhase (s : State) : exec (decodePhase s.regs.phase) s = phaseStep s := by
  unfold decodePhase phaseStep
  split_ifs <;> rfl

theorem stepInterval_even {p : Nat} (even : p % 2 = 0) : stepInterval p = .long := by simp [stepInterval, even]

theorem stepInterval_odd {p : Nat} (odd : p % 2 = 1) : stepInterval p = .short := by simp [stepInterval, odd]

/-- Every completed phase step but the stop loads the interval of its parity and runs the timer. -/
theorem phaseStep_arms {s t : State} (h : phaseStep s = .next t)
    (goesOn : ¬ (s.regs.phase = 97#7 ∧ s.regs.mode = .finishing)) :
    t.regs.tmrRun = true ∧ t.regs.tmrCnt.toNat = intervalCycles s.cfg (stepInterval s.regs.phase.toNat) := by
  cases phaseStep_next h with
  | stop phase mode _ => exact absurd ⟨phase, mode⟩ goesOn
  | turnaround phase _ eq =>
    subst eq
    rw [phase]
    exact ⟨rfl, intervalCycles_toNat s.cfg .short⟩
  | even _ parity b _ eq =>
    subst eq
    rw [stepInterval_even parity]
    exact ⟨rfl, intervalCycles_toNat s.cfg .long⟩
  | odd _ parity l r _ eq =>
    subst eq
    rw [stepInterval_odd parity]
    exact ⟨rfl, intervalCycles_toNat s.cfg .short⟩

theorem phaseStep_stop_timer {s t : State} (h : phaseStep s = .next t) (phase : s.regs.phase = 97#7)
    (mode : s.regs.mode = .finishing) : t.regs.tmrRun = s.regs.tmrRun ∧ t.regs.tmrCnt = s.regs.tmrCnt := by
  cases phaseStep_next h with
  | stop _ _ eq => subst eq; exact ⟨rfl, rfl⟩
  | turnaround _ other _ => exact absurd mode other
  | even range _ _ _ _ => simp [phase] at range
  | odd range _ _ _ _ _ => simp [phase] at range

/-- Settles O17: the decoded step is the phase step, which loads the interval of its parity unless it stops. -/
theorem stepParityArmsTheInterval : Obligations.StepParityArmsTheInterval := by
  intro s t _ h
  rw [exec_decodePhase] at h
  refine ⟨fun goesOn => ?_, phaseStep_stop_timer h⟩
  obtain ⟨running, count⟩ := phaseStep_arms h goesOn
  refine ⟨running, count.trans ?_⟩
  split
  · next even => rw [stepInterval_even even, intervalCycles_long]
  · next odd => rw [stepInterval_odd (Nat.mod_two_ne_zero.1 odd), intervalCycles_short]

/-! ### Runs of clock edges, and the inputs they use up (R142) -/

theorem coreRun_of_next {M : Host.Core} {k : Nat} {s t : M.State} (h : M.step s = .next t) :
    M.run (k + 1) s = M.run k t := by rw [Host.Core.run, h]

theorem coreRun_of_fault {M : Host.Core} {k : Nat} {s : M.State} {f : M.Fault} (h : M.step s = .fault f) :
    M.run (k + 1) s = .fault f := by rw [Host.Core.run, h]

theorem coreRun_of_refused {M : Host.Core} {k : Nat} {s : M.State} {r : M.Refusal} (h : M.step s = .refused r) :
    M.run (k + 1) s = .refused r := by rw [Host.Core.run, h]

/-- A run is its first edge and then the rest. -/
theorem runSteps_succ (k : Nat) (s : State) : runSteps (k + 1) s = andThen (step s) (runSteps k) := by
  cases h : step s with
  | next t => exact coreRun_of_next (M := core) h
  | fault f => exact coreRun_of_fault (M := core) h
  | refused r => exact coreRun_of_refused (M := core) h

theorem runSteps_one (s : State) : runSteps 1 s = step s := by
  rw [runSteps_succ]
  exact andThen_pure (step s)

theorem runSteps_add (m k : Nat) (s : State) : runSteps (m + k) s = andThen (runSteps m s) (runSteps k) := by
  induction m generalizing s with
  | zero => rw [Nat.zero_add]; rfl
  | succ m ih =>
    rw [Nat.succ_add, runSteps_succ, runSteps_succ, funext ih]
    cases step s <;> rfl

theorem noReset_left {s : State} {m k : Nat} (h : NoReset s (m + k)) : NoReset s m := by
  obtain ⟨listed, quiet⟩ := h
  refine ⟨by omega, fun p mem => quiet p ?_⟩
  rw [List.take_add]
  exact List.mem_append_left _ mem

theorem noReset_right {s t : State} {m k : Nat} (h : NoReset s (m + k)) (stim : t.stim = s.stim.drop m) :
    NoReset t k := by
  obtain ⟨listed, quiet⟩ := h
  refine ⟨by rw [stim, List.length_drop]; omega, fun p mem => quiet p ?_⟩
  rw [List.take_add, ← stim]
  exact List.mem_append_right _ mem

/-- A listed edge: its levels are those at the pins. -/
theorem pins_of_noReset {s : State} (h : NoReset s 1) : s.pins.rst = false ∧ s.pins.btnN = listedButton s 0 := by
  obtain ⟨listed, quiet⟩ := h
  cases stim : s.stim with
  | nil => simp [stim] at listed
  | cons p ps =>
    rw [pins_of_stim_cons s p ps stim]
    exact ⟨quiet p (by simp [stim]), by simp [listedButton, stim]⟩

theorem listedButton_of_drop {s t : State} {m : Nat} (stim : t.stim = s.stim.drop m) (k : Nat) :
    listedButton t k = listedButton s (m + k) := by
  rw [listedButton, listedButton, stim, List.getElem?_drop]

/-! ### A phase step inside a transmission (R120, R126) -/

/-- The step index advances, and returns to 0 from 97. -/
theorem phaseStep_phase {s t : State} (h : phaseStep s = .next t) :
    t.regs.phase = if s.regs.phase = 97#7 then 0#7 else s.regs.phase + 1#7 := by
  cases phaseStep_next h with
  | stop phase _ eq => subst eq; simp [phase]
  | turnaround phase _ eq => subst eq; simp [phase]
  | even range _ _ _ eq =>
    subst eq
    rw [if_neg (by bv_omega)]
    rfl
  | odd range _ _ _ _ eq =>
    subst eq
    rw [if_neg (by bv_omega)]
    rfl

/-- Only the stop changes the mode. -/
theorem phaseStep_mode {s t : State} (h : phaseStep s = .next t)
    (goesOn : ¬ (s.regs.phase = 97#7 ∧ s.regs.mode = .finishing)) : t.regs.mode = s.regs.mode := by
  cases phaseStep_next h with
  | stop phase mode _ => exact absurd ⟨phase, mode⟩ goesOn
  | turnaround _ _ eq => subst eq; rfl
  | even _ _ _ _ eq => subst eq; rfl
  | odd _ _ _ _ _ eq => subst eq; rfl

/-! ### One clock edge inside a transmission -/

/-- The mode after a cycle's button event in a transmission: a Release asks to finish (R101), a Press is ignored (R100). -/
def modeAfterButton (m : Mode) (q n : Bool) : Mode :=
  if m = .transmitting ∧ releaseEdge q n = true then .finishing else m

theorem modeAfterButton_ne_idle {m : Mode} (inFrame : m ≠ .idle) (q n : Bool) : modeAfterButton m q n ≠ .idle := by
  unfold modeAfterButton
  split
  · simp
  · exact inFrame

/-- A button that is down asks for nothing. -/
theorem modeAfterButton_down (m : Mode) (q : Bool) : modeAfterButton m q false = m := by
  simp [modeAfterButton, releaseEdge]

/-- In a transmission the handlers are the phase step of a Tick, if there is one, and then the button's effect on the
mode. -/
theorem handleEvents_inFrame {tick q n : Bool} {s u : State} (live : s.regs.gie = true)
    (first : (if tick then execTick q n s else .next s) = .next u) (inFrame : u.regs.mode ≠ .idle) :
    handleEvents tick q n s = .next (u.setMode (modeAfterButton u.regs.mode q n)) := by
  obtain ⟨dead, -⟩ | ⟨-, e⟩ := handleEvents_cases tick q n s
  · exact absurd (dead.symm.trans live) (by simp)
  have same : u.setMode u.regs.mode = u := rfl
  rw [e, first, andThen_next]
  cases q <;> cases n
  · simp [modeAfterButton, releaseEdge, same]
  · by_cases transmitting : u.regs.mode = .transmitting
    · simp [modeAfterButton, releaseEdge, transmitting, execRelease]
    · simp [modeAfterButton, releaseEdge, transmitting, execRelease, same]
  · simp [modeAfterButton, releaseEdge, same, execPress, inFrame]
  · simp [modeAfterButton, releaseEdge, same]

/-- `k` clock edges lead from `s` to `t`, a state inside a transmission that meets the invariants. -/
structure InFrameAfter (k : Nat) (s t : State) : Prop where
  run     : runSteps k s = .next t
  inv     : Inv t
  inFrame : t.regs.mode ≠ .idle
  cfg     : t.cfg = s.cfg
  stim    : t.stim = s.stim.drop k
  /-- The byte in hand stays right (R22). -/
  byte    : HoldsByte s → HoldsByte t
  /-- While the button is held, the transmission goes on (R101). -/
  held    : s.regs.mode = .transmitting → (∀ j, j < k → listedButton s j = false) → t.regs.mode = .transmitting

theorem InFrameAfter.refl {s : State} (inv : Inv s) (inFrame : s.regs.mode ≠ .idle) : InFrameAfter 0 s s :=
  ⟨rfl, inv, inFrame, rfl, rfl, id, fun h _ => h⟩

theorem InFrameAfter.trans {m k : Nat} {s t u : State} (h : InFrameAfter m s t) (h' : InFrameAfter k t u) :
    InFrameAfter (m + k) s u where
  run := by rw [runSteps_add, h.run, andThen_next, h'.run]
  inv := h'.inv
  inFrame := h'.inFrame
  cfg := h'.cfg.trans h.cfg
  stim := by rw [h'.stim, h.stim, List.drop_drop]
  byte := fun holds => h'.byte (h.byte holds)
  held := fun transmitting down =>
    h'.held (h.held transmitting fun j lt => down j (by omega)) fun j lt => by
      rw [listedButton_of_drop h.stim]
      exact down _ (by omega)

/-- A cycle whose Tick part leaves `u`, in a transmission, is one clock edge inside it. -/
theorem inFrameAfter_one {s d u : State} (inv : Inv s) (quiet : NoReset s 1)
    (timed : timerStep (s.setBtnQ s.pins.btnN) = .next d) (live : d.regs.gie = true)
    (first : (if s.tickNow then execTick s.regs.btnQ s.pins.btnN d else .next d) = .next u)
    (inFrame : u.regs.mode ≠ .idle) (mode : u.regs.mode = s.regs.mode) :
    ∃ t, InFrameAfter 1 s t ∧ t.regs.phase = u.regs.phase ∧ t.regs.tmrCnt = u.regs.tmrCnt := by
  obtain ⟨rst, button⟩ := pins_of_noReset quiet
  have cycle : execCycle s = .next (u.setMode (modeAfterButton u.regs.mode s.regs.btnQ s.pins.btnN)) := by
    rw [execCycle_eq, timed, andThen_next, handleEvents_inFrame live first inFrame]
  have edge : step s = .next (u.setMode (modeAfterButton u.regs.mode s.regs.btnQ s.pins.btnN)).advanceInputs := by
    rw [step_of_noReset rst, cycle, andThen_next]
  obtain ⟨cfg, stim, -⟩ := stepUsesOneInput _ _ edge
  refine ⟨_, ⟨(runSteps_one s).trans edge, step_inv inv edge, ?_, cfg, by rw [stim, List.drop_one],
    fun holds => stepKeepsTheByteInHand _ _ inv holds edge, fun transmitting down => ?_⟩, by simp, by simp⟩
  · simpa using modeAfterButton_ne_idle inFrame _ _
  · rw [advanceInputs_regs, setMode_mode, button, down 0 (by omega), modeAfterButton_down, mode, transmitting]

/-- An edge with more than one cycle left on the timer counts it down (R153). -/
theorem inFrame_counts {s : State} (inv : Inv s) (inFrame : s.regs.mode ≠ .idle) (more : 2 ≤ s.regs.tmrCnt.toNat)
    (quiet : NoReset s 1) : ∃ t, InFrameAfter 1 s t ∧ t.regs.phase = s.regs.phase ∧
      t.regs.tmrCnt.toNat = s.regs.tmrCnt.toNat - 1 := by
  obtain ⟨running, -, -⟩ := inv.armed inFrame
  have noTick : s.tickNow = false := by
    have ne : s.regs.tmrCnt ≠ 1#16 := by bv_omega
    simp [State.tickNow, ne]
  obtain ⟨run, cnt, timed, -, -, counted⟩ := timerStep_next (s.setBtnQ s.pins.btnN)
  obtain ⟨-, count⟩ := counted running more
  obtain ⟨t, after, phase, tmrCnt⟩ := inFrameAfter_one (u := (s.setBtnQ s.pins.btnN).setTimer run cnt) inv quiet timed
    (live_of_inFrame inv inFrame :) (by rw [noTick]; rfl) inFrame rfl
  exact ⟨t, after, phase, by rw [tmrCnt]; exact count⟩

/-- The edge of a Tick runs the phase step, which loads its own interval, unless the transmission stops there (R102,
R120). -/
theorem inFrame_ticks {s : State} (inv : Inv s) (inFrame : s.regs.mode ≠ .idle) (sendable : Sendable s.cfg.cs)
    (last : s.regs.tmrCnt = 1#16) (goesOn : ¬ (s.regs.phase = 97#7 ∧ s.regs.mode = .finishing))
    (quiet : NoReset s 1) : ∃ t, InFrameAfter 1 s t ∧
      t.regs.phase = (if s.regs.phase = 97#7 then 0#7 else s.regs.phase + 1#7) ∧
      t.regs.tmrCnt.toNat = intervalCycles s.cfg (stepInterval s.regs.phase.toNat) := by
  obtain ⟨running, -, -⟩ := inv.armed inFrame
  have tick : s.tickNow = true := by simp [State.tickNow, running, last]
  obtain ⟨run, cnt, timed, due, -⟩ := timerStep_inv inv s.pins.btnN
  obtain ⟨u, stepped⟩ := phaseStep_completes _ (due tick).phaseRange sendable
  have mode : u.regs.mode = s.regs.mode := (phaseStep_mode stepped goesOn :)
  obtain ⟨-, count⟩ := phaseStep_arms stepped goesOn
  obtain ⟨t, after, phase, tmrCnt⟩ := inFrameAfter_one (u := u) inv quiet timed (due tick).live
    (by rw [tick, if_pos rfl, execTick, if_neg (due tick).inFrame, stepped]) (mode ▸ inFrame) mode
  exact ⟨t, after, phase.trans (phaseStep_phase stepped :), by rw [tmrCnt]; exact count⟩

/-! ### From one phase step to the next (R79, R156) -/

theorem inFrame_counts_many {s : State} (inv : Inv s) (inFrame : s.regs.mode ≠ .idle) (k : Nat)
    (more : k < s.regs.tmrCnt.toNat) (quiet : NoReset s k) : ∃ t, InFrameAfter k s t ∧ t.regs.phase = s.regs.phase ∧
      t.regs.tmrCnt.toNat = s.regs.tmrCnt.toNat - k := by
  induction k with
  | zero => exact ⟨s, .refl inv inFrame, rfl, rfl⟩
  | succ k ih =>
    obtain ⟨t, before, phase, count⟩ := ih (by omega) (noReset_left quiet)
    obtain ⟨u, edge, phase', count'⟩ :=
      inFrame_counts before.inv before.inFrame (by omega) (noReset_right quiet before.stim)
    exact ⟨u, before.trans edge, phase'.trans phase, by omega⟩

/-- When the cycles left on the timer have passed, the next phase step has just run, unless the transmission stops. -/
theorem inFrame_reaches_nextStep {s : State} (inv : Inv s) (inFrame : s.regs.mode ≠ .idle)
    (sendable : Sendable s.cfg.cs) (quiet : NoReset s s.regs.tmrCnt.toNat)
    (goesOn : s.regs.phase ≠ 97#7 ∨
      s.regs.mode = .transmitting ∧ ∀ j, j + 1 < s.regs.tmrCnt.toNat → listedButton s j = false) :
    ∃ t, InFrameAfter s.regs.tmrCnt.toNat s t ∧
      t.regs.phase = (if s.regs.phase = 97#7 then 0#7 else s.regs.phase + 1#7) ∧
      t.regs.tmrCnt.toNat = intervalCycles s.cfg (stepInterval s.regs.phase.toNat) := by
  obtain ⟨-, pos, -⟩ := inv.armed inFrame
  obtain ⟨n, cnt⟩ : ∃ n, s.regs.tmrCnt.toNat = n + 1 := ⟨_, (Nat.sub_add_cancel pos).symm⟩
  rw [cnt] at quiet goesOn ⊢
  obtain ⟨t, waited, phase, count⟩ := inFrame_counts_many inv inFrame n (by omega) (noReset_left quiet)
  have last : t.regs.tmrCnt = 1#16 := by bv_omega
  have goesOn' : ¬ (t.regs.phase = 97#7 ∧ t.regs.mode = .finishing) := by
    rw [phase]
    rintro ⟨boundary, finishing⟩
    obtain inside | ⟨transmitting, down⟩ := goesOn
    · exact inside boundary
    · have mode := waited.held transmitting fun j lt => down j (by omega)
      exact absurd (mode.symm.trans finishing) (by simp)
  obtain ⟨u, edge, phase', count'⟩ := inFrame_ticks waited.inv waited.inFrame (waited.cfg ▸ sendable) last goesOn'
    (noReset_right quiet waited.stim)
  rw [phase] at phase' count'
  rw [waited.cfg] at count'
  exact ⟨u, waited.trans edge, phase', count'⟩

/-- The starts of two successive steps lie the first one's interval apart (R75, R79). -/
theorem stepStart_succ (cfg : Config) (p : Nat) :
    stepStart (p + 1) * tShort cfg = stepStart p * tShort cfg + intervalCycles cfg (stepInterval p) := by
  have units : stepStart (p + 1) = stepStart p + if p % 2 = 1 then 1 else 2 := by
    unfold stepStart
    split_ifs <;> omega
  rw [units, Nat.add_mul, stepInterval]
  split
  · rw [Nat.one_mul, intervalCycles_short]
  · rw [intervalCycles_long, tLong_eq]

/-- Step `p` of a frame has just run `t(p)` time units after its step 0 (R79). -/
theorem frameStarted_reaches_step {s : State} (started : FrameStarted s) (sendable : Sendable s.cfg.cs) {p : Nat}
    (range : p ≤ 96) (quiet : NoReset s (stepStart p * tShort s.cfg)) :
    ∃ t, InFrameAfter (stepStart p * tShort s.cfg) s t ∧ t.regs.phase = BitVec.ofNat 7 (p + 1) ∧
      t.regs.tmrCnt.toNat = intervalCycles s.cfg (stepInterval p) := by
  obtain ⟨inv, inFrame, phase, count, -⟩ := started
  induction p with
  | zero =>
    have start : stepStart 0 * tShort s.cfg = 0 := Nat.zero_mul _
    rw [start]
    exact ⟨s, .refl inv inFrame, phase, count⟩
  | succ p ih =>
    rw [stepStart_succ] at quiet ⊢
    obtain ⟨t, before, phase', count'⟩ := ih (by omega) (noReset_left quiet)
    have inside : t.regs.phase ≠ 97#7 := by rw [phase']; bv_omega
    have index : t.regs.phase.toNat = p + 1 := by rw [phase', BitVec.toNat_ofNat]; omega
    obtain ⟨u, next, phase'', count''⟩ := inFrame_reaches_nextStep before.inv before.inFrame (before.cfg ▸ sendable)
      (by rw [count']; exact noReset_right quiet before.stim) (.inl inside)
    rw [count'] at next
    rw [before.cfg, index] at count''
    refine ⟨u, before.trans next, ?_, count''⟩
    rw [phase'', if_neg inside, phase']
    bv_omega

/-! ### From one frame to the next (R106, R126) -/

/-- While the step index is 1, the byte in hand is byte 0 (R22). -/
theorem holdsByte_iff_of_phase_one {s : State} (inFrame : s.regs.mode ≠ .idle) (phase : s.regs.phase = 1#7) :
    HoldsByte s ↔ s.cfg.cs.read 0 = some s.regs.curByte := by
  have first : byteInHand 1#7 = 0 := rfl
  rw [HoldsByte, phase, first]
  exact ⟨fun holds => holds inFrame, fun read _ => read⟩

/-- A frame with the button held until its boundary ends in the turnaround, 146 time units after step 0 (R126). -/
theorem frameStarted_reaches_turnaround {s : State} (started : FrameStarted s)
    (transmitting : s.regs.mode = .transmitting) (sendable : Sendable s.cfg.cs) (quiet : NoReset s (frameCycles s.cfg))
    (down : ∀ k, k + 1 < frameCycles s.cfg → listedButton s k = false) :
    ∃ t, InFrameAfter (frameCycles s.cfg) s t ∧ t.regs.phase = 0#7 ∧ t.regs.tmrCnt.toNat = tShort s.cfg := by
  have units : frameCycles s.cfg = stepStart 96 * tShort s.cfg + tLong s.cfg := by
    have blank : stepStart 96 = 144 := rfl
    rw [frameCycles, blank, tLong_eq]
    omega
  have pos := tShort_pos s.cfg
  rw [units] at quiet down ⊢
  rw [tLong_eq] at down
  obtain ⟨t, toBlank, phase, count⟩ := frameStarted_reaches_step started sendable (le_refl 96) (noReset_left quiet)
  replace count : t.regs.tmrCnt.toNat = tLong s.cfg := count
  have transmitting' := toBlank.held transmitting fun j lt => down j (by omega)
  have down' (j : Nat) (lt : j + 1 < tLong s.cfg) : listedButton t j = false := by
    rw [tLong_eq] at lt
    rw [listedButton_of_drop toBlank.stim]
    exact down _ (by omega)
  have quiet' := noReset_right quiet toBlank.stim
  rw [← count] at quiet' down'
  obtain ⟨u, toBoundary, phase', count'⟩ := inFrame_reaches_nextStep toBlank.inv toBlank.inFrame
    (toBlank.cfg ▸ sendable) quiet' (.inr ⟨transmitting', down'⟩)
  rw [count] at toBoundary
  rw [phase] at phase' count'
  rw [toBlank.cfg] at count'
  exact ⟨u, toBlank.trans toBoundary, phase', count'⟩

/-- The turnaround ends in step 0 of a frame. -/
theorem turnaround_reaches_frameStarted {s : State} (inv : Inv s) (inFrame : s.regs.mode ≠ .idle)
    (phase : s.regs.phase = 0#7) (byte : HoldsByte s) (sendable : Sendable s.cfg.cs)
    (quiet : NoReset s s.regs.tmrCnt.toNat) : ∃ t, InFrameAfter s.regs.tmrCnt.toNat s t ∧ FrameStarted t := by
  obtain ⟨t, after, phase', count⟩ :=
    inFrame_reaches_nextStep inv inFrame sendable quiet (.inl (by rw [phase]; decide))
  rw [phase] at phase' count
  rw [← after.cfg] at count
  have read := (holdsByte_iff_of_phase_one after.inFrame phase').1 (after.byte byte)
  exact ⟨t, after, after.inv, after.inFrame, phase', count, read⟩

/-- A frame with the button held is followed by another, 147 time units after it (the turnaround is log 13). -/
theorem frameStarted_repeats {s : State} (started : FrameStarted s) (transmitting : s.regs.mode = .transmitting)
    (sendable : Sendable s.cfg.cs) (quiet : NoReset s (periodCycles s.cfg))
    (down : ∀ k, k < periodCycles s.cfg → listedButton s k = false) :
    ∃ t, InFrameAfter (periodCycles s.cfg) s t ∧ FrameStarted t := by
  have units : periodCycles s.cfg = frameCycles s.cfg + tShort s.cfg := Nat.succ_mul 146 _
  rw [units] at quiet down ⊢
  obtain ⟨t, toTurnaround, phase, count⟩ := frameStarted_reaches_turnaround started transmitting sendable
    (noReset_left quiet) fun k lt => down k (by omega)
  have quiet' := noReset_right quiet toTurnaround.stim
  rw [← count] at quiet' ⊢
  have ⟨_, inFrame, phase0, _, read⟩ := started
  have byte := toTurnaround.byte ((holdsByte_iff_of_phase_one inFrame phase0).2 read)
  obtain ⟨u, toStep0, again⟩ := turnaround_reaches_frameStarted toTurnaround.inv toTurnaround.inFrame phase byte
    (toTurnaround.cfg ▸ sendable) quiet'
  exact ⟨u, toTurnaround.trans toStep0, again⟩

/-- All nine registers of a Transmitting frame just started, by the invariants and the byte read. -/
theorem frameStarted_regs {s : State} (started : FrameStarted s) (transmitting : s.regs.mode = .transmitting) :
    s.regs = ⟨.transmitting, 1#7, (s.cfg.cs.read 0).getD 0#8, true, false, true, true,
      BitVec.ofNat 16 (tLong s.cfg), false⟩ := by
  obtain ⟨inv, inFrame, phase, count, read⟩ := started
  obtain ⟨running, -⟩ := inv.armed inFrame
  have rf : s.regs.rf = false := by
    by_contra on
    obtain ⟨-, even, -⟩ := inv.pulse (by simpa using on)
    simp [phase] at even
  have led : s.regs.led = true := by rw [inv.ledInFrame inFrame, rf]; rfl
  have tmrCnt : s.regs.tmrCnt = BitVec.ofNat 16 (tLong s.cfg) := by rw [← count, BitVec.ofNat_toNat, BitVec.setWidth_eq]
  have curByte : s.regs.curByte = (s.cfg.cs.read 0).getD 0#8 := by rw [read]; rfl
  calc s.regs = ⟨s.regs.mode, s.regs.phase, s.regs.curByte, s.regs.led, s.regs.rf, s.regs.gie, s.regs.tmrRun,
        s.regs.tmrCnt, s.regs.btnQ⟩ := rfl
    _ = _ := by
      rw [transmitting, phase, curByte, led, rf, live_of_inFrame inv inFrame, running, tmrCnt, inv.held transmitting]

/-- Settles O45: the timer is the next step's clock, one interval after the other. -/
theorem frameSchedule : Obligations.FrameSchedule := by
  intro s p started sendable range quiet
  obtain ⟨t, after, phase, count⟩ := frameStarted_reaches_step started sendable range quiet
  obtain ⟨running, -⟩ := after.inv.armed after.inFrame
  exact ⟨t, after.run, phase, running, count, after.inFrame⟩

/-- Any number of frames with the button held. -/
theorem frameStarted_repeats_many {s : State} (started : FrameStarted s) (transmitting : s.regs.mode = .transmitting)
    (sendable : Sendable s.cfg.cs) (n : Nat) (quiet : NoReset s (n * periodCycles s.cfg))
    (down : ∀ k, k < n * periodCycles s.cfg → listedButton s k = false) :
    ∃ t, InFrameAfter (n * periodCycles s.cfg) s t ∧ FrameStarted t := by
  induction n with
  | zero =>
    rw [Nat.zero_mul]
    have ⟨inv, inFrame, _⟩ := started
    exact ⟨s, .refl inv inFrame, started⟩
  | succ n ih =>
    rw [Nat.succ_mul] at quiet down ⊢
    obtain ⟨t, before, restarted⟩ := ih (noReset_left quiet) fun k lt => down k (by omega)
    have transmitting' := before.held transmitting fun k lt => down k (by omega)
    have quiet' := noReset_right quiet before.stim
    have down' (k : Nat) (lt : k < periodCycles s.cfg) : listedButton t k = false := by
      rw [listedButton_of_drop before.stim]
      exact down _ (by omega)
    rw [← before.cfg] at quiet' down'
    obtain ⟨u, next, again⟩ := frameStarted_repeats restarted transmitting' (before.cfg ▸ sendable) quiet' down'
    rw [before.cfg] at next
    exact ⟨u, before.trans next, again⟩

/-- Settles O49: a frame follows another every 147 units, and a frame just started has its registers fixed. -/
theorem heldButtonRepeatsEvery147Units : Obligations.HeldButtonRepeatsEvery147Units := by
  intro s n started transmitting sendable quiet down
  obtain ⟨t, after, restarted⟩ := frameStarted_repeats_many started transmitting sendable n quiet down
  have regs := frameStarted_regs restarted (after.held transmitting down)
  rw [after.cfg, ← frameStarted_regs started transmitting] at regs
  exact ⟨t, after.run, regs, after.cfg, after.stim⟩

end Sys2Proof.Machine

/-! PROOFS. The Transmission Engine's events (spec/40_engine_events.md): what each handler does (R100 to R104), its
agreement with the event-level engine (R107), the start of a frame (R100, R126), and what the button can change inside
one (R106). -/

namespace Sys2Proof.Machine

/-! ### What each handler does to `mode` (R104) -/

theorem execPress_mode {x : Bool} {s t : State} (h : execPress x s = .next t) :
    t.regs.mode = if s.regs.mode = .idle then .transmitting else s.regs.mode := by
  obtain ⟨inFrame, e⟩ | ⟨idle, b, -, e⟩ := execPress_cases x s <;> rw [e] at h <;> cases h
  · rw [if_neg inFrame]
  · rw [if_pos idle]
    rfl

theorem execRelease_mode {x : Bool} {s t : State} (h : execRelease x s = .next t) :
    t.regs.mode = if s.regs.mode = .transmitting then .finishing else s.regs.mode := by
  cases h
  split <;> rfl

/-- The stop is the boundary of a Finishing frame. -/
theorem phaseStep_mode_stop {s t : State} (h : phaseStep s = .next t) (phase : s.regs.phase = 97#7)
    (finishing : s.regs.mode = .finishing) : t.regs.mode = .idle := by
  cases phaseStep_next h with
  | stop _ _ eq => subst eq; rfl
  | turnaround _ other _ => exact absurd finishing other
  | even range _ _ _ _ => simp [phase] at range
  | odd range _ _ _ _ _ => simp [phase] at range

theorem execTick_mode {q n : Bool} {s t : State} (h : execTick q n s = .next t) :
    t.regs.mode = if s.regs.mode = .finishing ∧ s.regs.phase = 97#7 then .idle else s.regs.mode := by
  obtain ⟨idle, e⟩ | ⟨-, e⟩ := execTick_cases q n s <;> rw [e] at h
  · cases h
    simp [idle]
  split
  · next stop => exact phaseStep_mode_stop h stop.2 stop.1
  · next goesOn => exact phaseStep_mode h fun stop => goesOn stop.symm

/-! ### The timed part of a cycle inside a frame

Inside a frame, away from the boundary, a cycle is what the timer does, a phase step at a Tick, and then the button's
effect on the mode alone. -/

/-- The tick generator's part of a cycle and, at a Tick, the phase step. -/
def State.timedStep (s : State) : Result :=
  andThen (timerStep s) fun d => if s.tickNow then phaseStep d else .next d

theorem execCycle_inFrame {s : State} (live : s.regs.gie = true) (inFrame : s.regs.mode ≠ .idle)
    (inside : s.regs.phase ≠ 97#7) : execCycle s = andThen (s.setBtnQ s.pins.btnN).timedStep
      (fun u => .next (u.setMode (modeAfterButton s.regs.mode s.regs.btnQ s.pins.btnN))) := by
  obtain ⟨run, cnt, timed, -⟩ := timerStep_next (s.setBtnQ s.pins.btnN)
  have sameTick : (s.setBtnQ s.pins.btnN).tickNow = s.tickNow := rfl
  rw [execCycle_eq, State.timedStep, timed, andThen_next, andThen_next, sameTick]
  generalize hd : (s.setBtnQ s.pins.btnN).setTimer run cnt = d
  have mode : d.regs.mode = s.regs.mode := hd ▸ rfl
  have phase : d.regs.phase = s.regs.phase := hd ▸ rfl
  have live' : d.regs.gie = true := hd ▸ live
  have inFrame' : d.regs.mode ≠ .idle := mode ▸ inFrame
  have tickPart : (if s.tickNow then execTick s.regs.btnQ s.pins.btnN d else .next d) =
      if s.tickNow then phaseStep d else .next d := by rw [execTick, if_neg inFrame']
  obtain ⟨dead, -⟩ | ⟨-, e⟩ := handleEvents_cases s.tickNow s.regs.btnQ s.pins.btnN d
  · exact absurd (dead.symm.trans live') (by simp)
  rw [tickPart] at e
  cases stepped : if s.tickNow then phaseStep d else .next d with
  | next u =>
    have kept : u.regs.mode = s.regs.mode := by
      split at stepped
      · exact (phaseStep_mode stepped fun stop => inside (phase.symm.trans stop.1)).trans mode
      · cases stepped
        exact mode
    rw [handleEvents_inFrame live' (tickPart.trans stepped) (kept ▸ inFrame), kept, andThen_next]
  | fault f =>
    rw [e, stepped]
    rfl
  | refused r =>
    rw [e, stepped]
    rfl

/-! ### What the timed part does not read: the button, and Transmitting or Finishing (R101, R106) -/

/-- The registers of `s`, but for `mode` and `btn_q`, and its configuration, with the rest as in `e`. -/
def State.asIn (s e : State) : State :=
  { e with regs := { s.regs with mode := e.regs.mode, btnQ := e.regs.btnQ }, cfg := s.cfg }

theorem eq_asIn {s e : State} (cfg : s.cfg = e.cfg)
    (regs : e.regs = { s.regs with mode := e.regs.mode, btnQ := e.regs.btnQ }) : e = s.asIn e := by
  rw [State.asIn, ← regs, cfg]

theorem execPauseA_asIn (o : BitVec 2) (r : BitVec 3) (s e : State) :
    execPauseA o r (s.asIn e) = andThen (execPauseA o r s) fun t => .next (t.asIn e) := by
  have cfg : (s.asIn e).cfg = s.cfg := rfl
  unfold execPauseA State.fetchByte State.csRead
  rw [cfg]
  split
  · split <;> rfl
  · rfl

theorem execWindowB_asIn (o : BitVec 2) (r : BitVec 3) (s e : State) :
    execWindowB o r (s.asIn e) = andThen (execWindowB o r s) fun t => .next (t.asIn e) := by
  have curByte : (s.asIn e).regs.curByte = s.regs.curByte := rfl
  rw [execWindowB, execWindowB, curByte, andThen_next]
  split <;> rfl

/-- Away from the boundary, the one step that looks at `mode`. -/
theorem phaseStep_asIn {s : State} (inside : s.regs.phase ≠ 97#7) (e : State) :
    phaseStep (s.asIn e) = andThen (phaseStep s) fun t => .next (t.asIn e) := by
  have phase : (s.asIn e).regs.phase = s.regs.phase := rfl
  unfold phaseStep
  rw [phase, if_neg inside, if_neg inside]
  split
  · rfl
  split
  · rfl
  split
  · exact execPauseA_asIn _ _ s e
  split
  · rfl
  split
  · rfl
  · exact execWindowB_asIn (phaseO s.regs.phase) _ s e

theorem timerStep_asIn (s e : State) :
    timerStep (s.asIn e) = andThen (timerStep s) fun t => .next (t.asIn e) := by
  have run : (s.asIn e).regs.tmrRun = s.regs.tmrRun := rfl
  have cnt : (s.asIn e).regs.tmrCnt = s.regs.tmrCnt := rfl
  unfold timerStep execHold
  rw [run, cnt]
  split_ifs <;> rfl

theorem timedStep_asIn {s : State} (inside : s.regs.phase ≠ 97#7) (e : State) :
    (s.asIn e).timedStep = andThen s.timedStep fun t => .next (t.asIn e) := by
  have sameTick : (s.asIn e).tickNow = s.tickNow := rfl
  obtain ⟨run, cnt, timed, -⟩ := timerStep_next s
  rw [State.timedStep, State.timedStep, timerStep_asIn, timed, sameTick]
  simp only [andThen_next]
  split
  · exact phaseStep_asIn (s := s.setTimer run cnt) inside e
  · rfl

/-! ### Step 0 of a frame (R100, R121) -/

/-- Step 0 completes on every store: it reads offset 0 (R9). -/
theorem phaseStep_zero {s : State} (phase : s.regs.phase = 0#7) :
    ∃ b, s.cfg.cs.read 0 = some b ∧ phaseStep s = .next (s.setCurByte b).pause := by
  obtain ⟨noFault, refusal⟩ := phaseStep_refused (s := s)
  cases stepped : phaseStep s with
  | next t =>
    cases phaseStep_next stepped with
    | stop boundary _ _ => simp [phase] at boundary
    | turnaround boundary _ _ => simp [phase] at boundary
    | odd _ parity _ _ _ _ => simp [phase] at parity
    | even _ _ b fetch eq =>
      subst eq
      exact ⟨b, by simpa [phase] using fetch, rfl⟩
  | fault f => exact absurd stepped (noFault f)
  | refused r =>
    have pos := s.cfg.cs.len_pos
    obtain ⟨reserved, -⟩ | ⟨-, short, -⟩ := refusal r stepped
    · simp [phase] at reserved
    · rw [phase] at short
      exact absurd pos (Nat.not_lt.2 short)

/-- A state that meets R33 and holds what step 0 writes (R121) is the start of a frame. -/
theorem frameStarted_of_regs {s t : State} {b : Byte} (inv : Inv t) (inFrame : t.regs.mode ≠ .idle)
    (cfg : t.cfg = s.cfg) (read : s.cfg.cs.read 0 = some b) (phase : t.regs.phase = 1#7)
    (curByte : t.regs.curByte = b) (tmrCnt : t.regs.tmrCnt = BitVec.ofNat 16 (tLong s.cfg)) : FrameStarted t := by
  refine ⟨inv, inFrame, phase, ?_, ?_⟩
  · rw [tmrCnt, cfg]
    exact intervalCycles_toNat s.cfg .long
  · rw [cfg, curByte, read]

/-- The cycle of a Press in a live Idle state with the timer stopped is the handler of the Press. -/
theorem execCycle_press {s : State} (live : s.regs.gie = true) (stopped : s.regs.tmrRun = false)
    (up : s.regs.btnQ = true) (down : s.pins.btnN = false) : execCycle s = execPress false (s.setBtnQ false) := by
  have held : timerStep (s.setBtnQ false) = .next (s.setBtnQ false) := by simp [timerStep, stopped, execHold]
  rw [execCycle_eq, down, held, andThen_next, tickNow_of_stopped stopped, up]
  obtain ⟨dead, -⟩ | ⟨-, e⟩ := handleEvents_cases false true false (s.setBtnQ false)
  · exact absurd (dead.symm.trans live) (by simp)
  · exact e

/-- The first frame of a transmission starts at the edge of its Press. -/
theorem step_pressComing {s : State} (coming : PressComing s) :
    ∃ t, step s = .next t ∧ FrameStarted t ∧ t.regs.mode = .transmitting := by
  obtain ⟨live, idle, stopped, up, rst, down⟩ := coming
  obtain ⟨inFrame, -⟩ | ⟨-, b, read, pressed⟩ := execPress_cases false (s.setBtnQ false)
  · exact absurd idle inFrame
  have edge := step_of_noReset rst
  rw [execCycle_press live stopped up down, pressed, andThen_next] at edge
  have inv : Inv ((((s.setBtnQ false).setMode .transmitting).setPhase 0#7).setCurByte b).pause :=
    inv_iff_upToButton.2 ⟨pause_inv live (by simp) (by simp), fun _ => rfl⟩
  exact ⟨_, edge, frameStarted_of_regs (inv_advanceInputs.2 inv) (by simp) (advanceInputs_cfg _) read (by simp)
    (by simp) (by simp), by simp⟩

/-- At the end of a turnaround the timed part of the cycle is step 0. -/
theorem timedStep_turnaroundEnd {s : State} (running : s.regs.tmrRun = true) (last : s.regs.tmrCnt = 1#16)
    (phase : s.regs.phase = 0#7) : ∃ b, s.cfg.cs.read 0 = some b ∧
      s.timedStep = .next ((s.setTimer false 0#16).setCurByte b).pause := by
  have tick : s.tickNow = true := by simp [State.tickNow, running, last]
  have expired : timerStep s = .next (s.setTimer false 0#16) := by simp [timerStep, running, last, execExpire]
  rw [State.timedStep, expired, andThen_next, tick, if_pos rfl]
  exact phaseStep_zero (s := s.setTimer false 0#16) phase

/-- A later frame starts at the edge that ends the turnaround, which may also be a Release. -/
theorem step_turnaroundEnd {s : State} (inv : Inv s) (inFrame : s.regs.mode ≠ .idle) (phase : s.regs.phase = 0#7)
    (last : s.regs.tmrCnt = 1#16) (rst : s.pins.rst = false) : ∃ t, step s = .next t ∧ FrameStarted t ∧
      t.regs.mode = modeAfterButton s.regs.mode s.regs.btnQ s.pins.btnN := by
  obtain ⟨running, -, -⟩ := inv.armed inFrame
  obtain ⟨b, read, timed⟩ := timedStep_turnaroundEnd (s := s.setBtnQ s.pins.btnN) running last phase
  have edge := step_of_noReset rst
  rw [execCycle_inFrame (live_of_inFrame inv inFrame) inFrame (by rw [phase]; decide), timed, andThen_next,
    andThen_next] at edge
  refine ⟨_, edge, frameStarted_of_regs (step_inv inv edge) ?_ (advanceInputs_cfg _) read ?_ ?_ ?_, by simp⟩
  · simpa using modeAfterButton_ne_idle inFrame _ _
  · simp [phase]
  · simp
  · simp

/-- In a state that meets R33 a Release asks a Transmitting block to finish: the button was down (item 9). -/
theorem modeAfterButton_of_inv {s : State} (inv : Inv s) (n : Bool) : modeAfterButton s.regs.mode s.regs.btnQ n =
    if s.regs.mode = .transmitting ∧ n = true then .finishing else s.regs.mode := by
  by_cases transmitting : s.regs.mode = .transmitting
  · simp [modeAfterButton, releaseEdge, transmitting, inv.held transmitting]
  · simp [modeAfterButton, transmitting]

/-! ### The obligations of spec/40_engine_events.md -/

/-- Settles O10: the step that `phase` decodes to is the phase step, which TICK runs unless Idle. -/
theorem tickRunsTheDecodedStep : Obligations.TickRunsTheDecodedStep := by
  refine ⟨by decide, fun q n s => ⟨fun inFrame => ?_, fun idle => if_pos idle⟩⟩
  rw [exec_decodePhase]
  exact if_neg inFrame

/-- Settles O11: the phase step completes, and what it leaves is known by its frame. -/
theorem tickCompletesInsideAFrame : Obligations.TickCompletesInsideAFrame := by
  intro q n s inFrame range sendable
  obtain ⟨t, stepped⟩ := phaseStep_completes s range sendable
  have h : execTick q n s = .next t := (if_neg inFrame).trans stepped
  have env := execTick_sameEnvironment h
  have gie : s.regs.gie = t.regs.gie := execTick_writesOnly h .gie (by simp [writes])
  have btnQ : s.regs.btnQ = t.regs.btnQ := execTick_writesOnly h .btnQ (by simp [writes])
  exact ⟨t, h, phaseStep_phase stepped, gie.symm, btnQ.symm, env.cfg, env.stim, env.freeIx⟩

/-- Settles O13: the table of R104, handler by handler. -/
theorem modeTransitions : Obligations.ModeTransitions :=
  fun _ _ => ⟨fun x => execPress_mode (x := x), fun x => execRelease_mode (x := x),
    fun q n => execTick_mode (q := q) (n := n)⟩

/-- Settles O43: the timed part of a cycle away from the boundary reads neither the button nor Transmitting or
Finishing, and the button's events come after it and write `mode` alone. -/
theorem buttonCannotDisturbAFrame : Obligations.ButtonCannotDisturbAFrame := by
  intro s s' t t' cfg live live' inFrame inFrame' inside regs h h'
  have phase : s'.regs.phase = s.regs.phase := by rw [regs]
  rw [exec, execCycle_inFrame live inFrame inside] at h
  rw [exec, execCycle_inFrame live' inFrame' (phase ▸ inside)] at h'
  obtain ⟨u, timed, rfl⟩ : ∃ u, (s.setBtnQ s.pins.btnN).timedStep = .next u ∧
      u.setMode (modeAfterButton s.regs.mode s.regs.btnQ s.pins.btnN) = t := by simpa [andThen_eq_next] using h
  have same : s'.setBtnQ s'.pins.btnN = (s.setBtnQ s.pins.btnN).asIn (s'.setBtnQ s'.pins.btnN) :=
    congrArg (State.setBtnQ · s'.pins.btnN) (eq_asIn cfg regs)
  rw [same, timedStep_asIn (s := s.setBtnQ s.pins.btnN) inside, timed, andThen_next, andThen_next] at h'
  cases h'
  exact ⟨rfl, modeAfterButton_ne_idle inFrame _ _, modeAfterButton_ne_idle inFrame' _ _⟩

/-- Settles O44: both edges run step 0; the second may also be a Release, which then finds the button down. -/
theorem stepZeroStartsAFrame : Obligations.StepZeroStartsAFrame := by
  intro s
  constructor
  · intro coming
    obtain ⟨t, edge, started, mode⟩ := step_pressComing coming
    obtain ⟨cfg, stim, -⟩ := stepUsesOneInput s t edge
    exact ⟨t, edge, started, mode, cfg, stim⟩
  · intro inv inFrame phase last rst
    obtain ⟨t, edge, started, mode⟩ := step_turnaroundEnd inv inFrame phase last rst
    obtain ⟨cfg, stim, -⟩ := stepUsesOneInput s t edge
    exact ⟨t, edge, started, cfg, stim, mode.trans (modeAfterButton_of_inv inv _)⟩

/-- Settles O53: each handler agrees with the engine on its event, phase step by phase step. -/
theorem handlersAgreeWithTheEventLevelEngine : Obligations.HandlersAgreeWithTheEventLevelEngine :=
  exec_handlerOf_agrees

/-- Settles O8: PRESS is ignored in a frame and runs step 0 in Idle, where every store has its byte. -/
theorem pressStartsOnlyFromIdle : Obligations.PressStartsOnlyFromIdle := by
  refine ⟨by decide, fun x s => ⟨fun idle => ?_, fun inFrame => if_neg inFrame⟩⟩
  obtain ⟨inFrame, -⟩ | ⟨-, b, read, pressed⟩ := execPress_cases x s
  · exact absurd idle inFrame
  · exact ⟨b, read, pressed⟩

/-- Settles O9: RELEASE writes `mode` in Transmitting, and nothing otherwise. -/
theorem releaseOnlyAsksToFinish : Obligations.ReleaseOnlyAsksToFinish := by
  refine ⟨by decide, fun x s => ⟨fun transmitting => ?_, fun other => ?_⟩⟩
  · rw [exec, execRelease, if_pos transmitting]
    rfl
  · rw [exec, execRelease, if_neg other]

/-- Settles O12: both are the identity by definition (R103, R200). -/
theorem noeventAndWaitChangeNothing : Obligations.NoeventAndWaitChangeNothing := fun _ _ => ⟨rfl, rfl⟩

end Sys2Proof.Machine

/-! PROOFS. The phase encoder (spec/41_phase_encoder.md): what each phase step does (R121 to R127), the outputs of a
frame as a function of time (R129), and what the boundary of a frame decides (R126, R169, R231). -/

namespace Sys2Proof.Machine

/-! ### Selection of a bit's four steps (R74, R120) -/

theorem decodePhase_of_bit {p : Phase} (bit : p.toNat ≤ 95) :
    (phaseQ p = 0#2 → decodePhase p = .pauseA (phaseO p) (phaseR p)) ∧
    (phaseQ p = 1#2 → decodePhase p = .windowA (phaseO p) (phaseR p)) ∧
    (phaseQ p = 2#2 → decodePhase p = .pauseB (phaseO p) (phaseR p)) ∧
    (phaseQ p = 3#2 → decodePhase p = .windowB (phaseO p) (phaseR p)) := by
  have offset := phaseO_toNat p
  obtain ⟨pauseA, windowA, pauseB, windowB⟩ := decodePhase_append (o := phaseO p) (by bv_omega) (phaseR p)
  refine ⟨fun q => ?_, fun q => ?_, fun q => ?_, fun q => ?_⟩
  · rwa [← q, append_phaseFields] at pauseA
  · rwa [← q, append_phaseFields] at windowA
  · rwa [← q, append_phaseFields] at pauseB
  · rwa [← q, append_phaseFields] at windowB

/-! ### The fetch, case by case (R52, R77) -/

theorem fetchByte_of_ne {s : State} {o : BitVec 2} {r : BitVec 3} (later : r ≠ 0#3) (k : State → Result) :
    s.fetchByte o r k = k s := by simp [State.fetchByte, fetches, later]

theorem fetchByte_of_read {s : State} {o : BitVec 2} {b : Byte} (read : s.cfg.cs.read o.toNat = some b)
    (k : State → Result) : s.fetchByte o 0#3 k = k (s.setCurByte b) := by
  simp [State.fetchByte, fetches, State.csRead, read]

theorem fetchByte_of_none {s : State} {o : BitVec 2} (beyond : s.cfg.cs.read o.toNat = none) (k : State → Result) :
    s.fetchByte o 0#3 k = .refused (.codeStoreRead o.toNat) := by
  simp [State.fetchByte, fetches, State.csRead, beyond]

/-! ### The phase steps (R121 to R127) -/

/-- Settles O1: the fetch case by case, and then a pause. -/
theorem pauseAFetchesAndPauses : Obligations.PauseAFetchesAndPauses := by
  intro o r s
  refine ⟨fun bit => ?_, fun later => ?_, fun b first read => ?_, fun first beyond => ?_⟩
  · obtain ⟨pauseA, -⟩ := decodePhase_of_bit bit
    exact pauseA
  · rw [exec, execPauseA, fetchByte_of_ne later]
    rfl
  · rw [exec, first, execPauseA, fetchByte_of_read read]
    rfl
  · rw [exec, first, execPauseA, fetchByte_of_none beyond]

/-- Settles O2: the window pulses when the bit is 0. -/
theorem windowAPulsesZeroBits : Obligations.WindowAPulsesZeroBits := by
  intro o r s
  refine ⟨fun bit => ?_, fun zero => ?_, fun one => ?_⟩
  · obtain ⟨-, windowA, -⟩ := decodePhase_of_bit bit
    exact windowA
  · rw [exec, execWindowA, bitValue, zero]
    rfl
  · rw [exec, execWindowA, bitValue, one]
    rfl

/-- Settles O3: a pause without a fetch. -/
theorem pauseBEndsThePulse : Obligations.PauseBEndsThePulse := by
  intro o r s
  refine ⟨fun bit => ?_, rfl⟩
  obtain ⟨-, -, pauseB, -⟩ := decodePhase_of_bit bit
  exact pauseB

/-- Settles O4: the window pulses when the bit is 1, and else keeps the outputs. -/
theorem windowBPulsesOneBits : Obligations.WindowBPulsesOneBits := by
  intro o r s
  refine ⟨fun bit => ?_, fun one => ?_, fun zero => ?_⟩
  · obtain ⟨-, -, -, windowB⟩ := decodePhase_of_bit bit
    exact windowB
  · rw [exec, execWindowB, bitValue, one]
    rfl
  · rw [exec, execWindowB, bitValue, zero]
    rfl

/-- Settles O5: the blank's definition, with `T_LONG = 2 * T_SHORT`. -/
theorem blankIsASyncGap : Obligations.BlankIsASyncGap := ⟨rfl, fun _ => rfl⟩

/-- Settles O6: BOUNDARY's two branches. -/
theorem boundaryStopsOrRepeats : Obligations.BoundaryStopsOrRepeats :=
  ⟨rfl, fun _ => ⟨fun finishing => if_pos finishing, fun goesOn => if_neg goesOn⟩⟩

/-- Settles O7: step selection comes to 98 and above after 96 and 97, and before the bits (R74). -/
theorem reservedStepIsRefused : Obligations.ReservedStepIsRefused := by
  refine ⟨fun p reserved => ?_, fun x s => rfl⟩
  rw [decodePhase, if_neg (by bv_omega), if_neg (by bv_omega), if_pos reserved]

/-! ### The outputs while a step of the frame runs (R71, R122, R124) -/

/-- Whether RF is on while step `p` of a frame runs: in the first window of a 0 bit and the second of a 1 bit. -/
def stepRf (m : Megacode) (p : Nat) : Bool :=
  decide (p < 96) && ((p % 4 == 1 && !codeBit m (p / 4)) || (p % 4 == 3 && codeBit m (p / 4)))

theorem stepRf_even (m : Megacode) {p : Nat} (even : p % 2 = 0) : stepRf m p = false := by
  have first : p % 4 ≠ 1 := by omega
  have second : p % 4 ≠ 3 := by omega
  simp [stepRf, first, second]

/-- The step that runs while the step index is `p`: the one before, which is the boundary's turnaround at index 0. -/
def runningStep (p : Phase) : Nat := if p = 0#7 then 97 else p.toNat - 1

theorem runningStep_succ {p : Phase} (range : p.toNat ≤ 96) : runningStep (p + 1#7) = p.toNat := by
  rw [runningStep, if_neg (phase_succ_ne_zero range), phase_succ_toNat range, Nat.add_sub_cancel]

/-- In a frame the byte in hand is right and RF is as the running step calls for. -/
structure ShowsCode (m : Megacode) (s : State) : Prop where
  code : s.cfg.cs.megacode = some m
  byte : HoldsByte s
  rf   : s.regs.mode ≠ .idle → s.regs.rf = stepRf m (runningStep s.regs.phase)

theorem ShowsCode.of_idle {m : Megacode} {s : State} (code : s.cfg.cs.megacode = some m) (idle : s.regs.mode = .idle) :
    ShowsCode m s := ⟨code, holdsByte_of_idle idle, fun inFrame => absurd idle inFrame⟩

/-- A change of state that keeps what the code's outputs depend on, or leaves the frame. -/
theorem ShowsCode.congr {m : Megacode} {s t : State} (shows : ShowsCode m s) (cfg : t.cfg = s.cfg)
    (curByte : t.regs.curByte = s.regs.curByte) (phase : t.regs.phase = s.regs.phase) (rf : t.regs.rf = s.regs.rf)
    (mode : t.regs.mode ≠ .idle → s.regs.mode ≠ .idle) : ShowsCode m t where
  code := cfg ▸ shows.code
  byte := holdsByte_congr shows.byte cfg curByte (congrArg byteInHand phase) mode
  rf inFrame := by rw [rf, phase, shows.rf (mode inFrame)]

/-- The bit that a window sends is the code bit of its slot (R55, R76). -/
theorem ShowsCode.bitValue_eq {m : Megacode} {s : State} (shows : ShowsCode m s) (inFrame : s.regs.mode ≠ .idle)
    (range : s.regs.phase.toNat ≤ 95) (odd : s.regs.phase.toNat % 2 = 1) :
    bitValue s.regs.curByte (phaseR s.regs.phase) = codeBit m (s.regs.phase.toNat / 4) := by
  have index : byteInHand s.regs.phase = (phaseO s.regs.phase).toNat := by
    have ne : s.regs.phase ≠ 0#7 := by bv_omega
    rw [byteInHand, if_neg ne, phaseO_toNat]
    split_ifs <;> omega
  exact bitSentIsCodeBit23MinusB _ m _ _ shows.code range (index ▸ shows.byte inFrame)

/-- RF is off when BOUNDARY or WINDOW_B finds it: the step that runs then is a pause or the blank. -/
theorem ShowsCode.rf_off {m : Megacode} {s : State} (shows : ShowsCode m s) (inFrame : s.regs.mode ≠ .idle)
    (odd : s.regs.phase.toNat % 2 = 1) : s.regs.rf = false := by
  have ne : s.regs.phase ≠ 0#7 := by bv_omega
  rw [shows.rf inFrame, runningStep, if_neg ne, stepRf_even m (by omega)]

theorem phaseStep_showsCode {m : Megacode} {s t : State} (inFrame : s.regs.mode ≠ .idle) (shows : ShowsCode m s)
    (h : phaseStep s = .next t) : ShowsCode m t := by
  have byte := phaseStep_holdsByte shows.byte h
  cases phaseStep_next h with
  | stop _ _ eq => subst eq; exact .of_idle shows.code rfl
  | turnaround phase _ eq =>
    subst eq
    exact ⟨shows.code, byte, fun _ => shows.rf_off inFrame (by simp [phase])⟩
  | even range parity b _ eq =>
    subst eq
    refine ⟨shows.code, byte, fun _ => ?_⟩
    rw [pause_phase, setCurByte_phase, runningStep_succ range, stepRf_even m parity, pause_rf]
  | odd range parity l r outputs eq =>
    have bit := shows.bitValue_eq inFrame range parity
    have off := shows.rf_off inFrame parity
    have rf : r = stepRf m s.regs.phase.toNat := by
      have inCode : s.regs.phase.toNat < 96 := by omega
      rw [bit] at outputs
      obtain ⟨first, rfl, rfl⟩ | ⟨second, one, -, rfl⟩ | ⟨second, zero, -, rfl⟩ := outputs
      · simp [stepRf, inCode, first]
      · simp [stepRf, inCode, second, one]
      · simp [stepRf, inCode, second, zero, off]
    subst eq
    refine ⟨shows.code, byte, fun _ => ?_⟩
    rw [nextPhase_phase, arm_phase, setOut_phase, runningStep_succ (by omega), ← rf]
    rfl

theorem execTick_showsCode {m : Megacode} {q n : Bool} {s t : State} (h : execTick q n s = .next t)
    (shows : ShowsCode m s) : ShowsCode m t := by
  obtain ⟨-, e⟩ | ⟨inFrame, e⟩ := execTick_cases q n s <;> rw [e] at h
  · cases h; exact shows
  · exact phaseStep_showsCode inFrame shows h

theorem execPress_showsCode {m : Megacode} {x : Bool} {s t : State} (h : execPress x s = .next t)
    (shows : ShowsCode m s) : ShowsCode m t := by
  have byte := execPress_holdsByte shows.byte h
  obtain ⟨-, e⟩ | ⟨-, b, -, e⟩ := execPress_cases x s <;> rw [e] at h <;> cases h
  · exact shows
  · exact ⟨shows.code, byte, fun _ => (stepRf_even m (p := 0) rfl).symm⟩

theorem execRelease_showsCode {m : Megacode} {x : Bool} {s t : State} (h : execRelease x s = .next t)
    (shows : ShowsCode m s) : ShowsCode m t := by
  cases h
  split
  · next transmitting => exact shows.congr rfl rfl rfl rfl (by simp [transmitting])
  · exact shows

theorem execCycle_showsCode {m : Megacode} {s t : State} (h : execCycle s = .next t) (shows : ShowsCode m s) :
    ShowsCode m t := by
  obtain ⟨run, cnt, e, -⟩ := timerStep_next (s.setBtnQ s.pins.btnN)
  rw [execCycle_eq, e, andThen_next] at h
  exact handleEvents_keeps execTick_showsCode execPress_showsCode execRelease_showsCode h
    (shows.congr rfl rfl rfl rfl id)

/-- Every clock edge keeps the outputs right. -/
theorem step_showsCode {m : Megacode} {s t : State} (h : step s = .next t) (shows : ShowsCode m s) : ShowsCode m t := by
  obtain ⟨u, rfl, edge⟩ := step_eq_next.1 h
  have after : ShowsCode m u := by
    obtain ⟨-, hr⟩ | ⟨-, hc⟩ := edge
    · exact .of_idle ((execReset_sameEnvironment hr).cfg ▸ shows.code) (execReset_mode hr)
    · exact execCycle_showsCode hc shows
  exact after.congr (by simp) (by simp) (by simp) (by simp) (by simp)

/-- What every clock edge keeps, a run keeps. -/
theorem runSteps_keeps {P : State → Prop} (edge : ∀ {a b}, step a = .next b → P a → P b) {k : Nat} {s t : State}
    (h : runSteps k s = .next t) (start : P s) : P t := by
  induction k generalizing s with
  | zero => cases h; exact start
  | succ k ih =>
    rw [runSteps_succ] at h
    obtain ⟨u, first, rest⟩ := andThen_eq_next.1 h
    exact ih rest (edge first start)

theorem frameStarted_showsCode {m : Megacode} {s : State} (started : FrameStarted s)
    (code : s.cfg.cs.megacode = some m) : ShowsCode m s := by
  obtain ⟨inv, inFrame, phase, -, read⟩ := started
  refine ⟨code, (holdsByte_iff_of_phase_one inFrame phase).2 read, fun _ => ?_⟩
  have step0 : runningStep 1#7 = 0 := rfl
  rw [phase, step0, stepRf_even m rfl]
  by_contra on
  obtain ⟨-, even, -⟩ := inv.pulse (by simpa using on)
  simp [phase] at even

/-! ### The step that runs in a time unit (R79, R129) -/

/-- The inverse of `t(p)`: the step that runs in time unit `u` of a frame, the turnaround being step 97 in unit 146. -/
def stepAt (u : Nat) : Nat :=
  4 * (u / 6) + (if u % 6 < 2 then 0 else if u % 6 = 2 then 1 else if u % 6 < 5 then 2 else 3)

theorem stepAt_le_96 {u : Nat} (inFrame : u < 146) : stepAt u ≤ 96 := by
  unfold stepAt
  split_ifs <;> omega

theorem stepStart_stepAt (u : Nat) : stepStart (stepAt u) ≤ u ∧ u < stepStart (stepAt u + 1) := by
  unfold stepAt stepStart
  split_ifs <;> omega

/-- In the frame's time units, R129's closed form is what the steps show. -/
theorem stepRf_stepAt (m : Megacode) (u : Nat) : stepRf m (stepAt u) = rfAt m u := by
  have fields : (stepAt u < 96 ↔ u < 144) ∧ (stepAt u % 4 = 1 ↔ u % 6 = 2) ∧ (stepAt u % 4 = 3 ↔ u % 6 = 5) ∧
      stepAt u / 4 = u / 6 := by
    unfold stepAt
    split_ifs <;> omega
  obtain ⟨inCode, first, second, slot⟩ := fields
  simp only [stepRf, rfAt, beq_eq_decide, inCode, first, second, slot]

/-- The step of a cycle has started by then, and the next one has not. -/
theorem stepStart_stepAt_cycles (cfg : Config) (c : Nat) : stepStart (stepAt (c / tShort cfg)) * tShort cfg ≤ c ∧
    c < stepStart (stepAt (c / tShort cfg) + 1) * tShort cfg := by
  obtain ⟨lower, upper⟩ := stepStart_stepAt (c / tShort cfg)
  exact ⟨(Nat.le_div_iff_mul_le (tShort_pos cfg)).1 lower, (Nat.div_lt_iff_lt_mul (tShort_pos cfg)).1 upper⟩

/-! ### Every cycle of a frame and of its turnaround (R79) -/

/-- In each cycle of a frame the step of its time unit runs, and the timer holds the cycles left to the next step. -/
theorem frameStarted_reaches_cycle {s : State} (started : FrameStarted s) (sendable : Sendable s.cfg.cs) {c : Nat}
    (inFrame : c < frameCycles s.cfg) (quiet : NoReset s c) :
    ∃ t, InFrameAfter c s t ∧ t.regs.phase = BitVec.ofNat 7 (stepAt (c / tShort s.cfg) + 1) ∧
      c + t.regs.tmrCnt.toNat = stepStart (stepAt (c / tShort s.cfg) + 1) * tShort s.cfg := by
  have range : stepAt (c / tShort s.cfg) ≤ 96 := stepAt_le_96 ((Nat.div_lt_iff_lt_mul (tShort_pos s.cfg)).2 inFrame)
  obtain ⟨lower, upper⟩ := stepStart_stepAt_cycles s.cfg c
  generalize stepAt (c / tShort s.cfg) = p at *
  obtain ⟨k, rfl⟩ := Nat.exists_eq_add_of_le lower
  rw [stepStart_succ] at upper ⊢
  obtain ⟨t, toStep, phase, count⟩ := frameStarted_reaches_step started sendable range (noReset_left quiet)
  obtain ⟨u, waited, phase', count'⟩ := inFrame_counts_many toStep.inv toStep.inFrame k (by omega)
    (noReset_right quiet toStep.stim)
  exact ⟨u, toStep.trans waited, phase'.trans phase, by omega⟩

/-- In each cycle of the turnaround the step index is 0. -/
theorem frameStarted_reaches_turnaroundCycle {s : State} (started : FrameStarted s)
    (transmitting : s.regs.mode = .transmitting) (sendable : Sendable s.cfg.cs) {c : Nat}
    (lower : frameCycles s.cfg ≤ c) (upper : c < periodCycles s.cfg) (quiet : NoReset s c)
    (down : ∀ k, k + 1 < frameCycles s.cfg → listedButton s k = false) :
    ∃ t, InFrameAfter c s t ∧ t.regs.phase = 0#7 := by
  have units : periodCycles s.cfg = frameCycles s.cfg + tShort s.cfg := Nat.succ_mul 146 _
  obtain ⟨k, rfl⟩ := Nat.exists_eq_add_of_le lower
  obtain ⟨t, toTurnaround, phase, count⟩ :=
    frameStarted_reaches_turnaround started transmitting sendable (noReset_left quiet) down
  obtain ⟨u, waited, phase', -⟩ := inFrame_counts_many toTurnaround.inv toTurnaround.inFrame k (by omega)
    (noReset_right quiet toTurnaround.stim)
  exact ⟨u, toTurnaround.trans waited, phase'.trans phase⟩

/-- In each cycle of a frame the step of its time unit runs, whatever the button does. -/
theorem frameStarted_runningStep {s : State} (started : FrameStarted s) (sendable : Sendable s.cfg.cs) {c : Nat}
    (inFrame : c < frameCycles s.cfg) (quiet : NoReset s c) :
    ∃ t, InFrameAfter c s t ∧ runningStep t.regs.phase = stepAt (c / tShort s.cfg) := by
  obtain ⟨t, after, phase, -⟩ := frameStarted_reaches_cycle started sendable inFrame quiet
  have range : stepAt (c / tShort s.cfg) ≤ 96 := stepAt_le_96 ((Nat.div_lt_iff_lt_mul (tShort_pos s.cfg)).2 inFrame)
  refine ⟨t, after, ?_⟩
  rw [phase, runningStep, if_neg (by bv_omega), BitVec.toNat_ofNat]
  omega

/-- With the button held, so it does in the turnaround that follows. -/
theorem frameStarted_runningStep_held {s : State} (started : FrameStarted s) (sendable : Sendable s.cfg.cs)
    (transmitting : s.regs.mode = .transmitting) {c : Nat} (inPeriod : c < periodCycles s.cfg) (quiet : NoReset s c)
    (down : ∀ k, k < c → listedButton s k = false) :
    ∃ t, InFrameAfter c s t ∧ runningStep t.regs.phase = stepAt (c / tShort s.cfg) := by
  by_cases inFrame : c < frameCycles s.cfg
  · exact frameStarted_runningStep started sendable inFrame quiet
  have lower : frameCycles s.cfg ≤ c := Nat.not_lt.1 inFrame
  obtain ⟨t, after, phase⟩ := frameStarted_reaches_turnaroundCycle started transmitting sendable lower inPeriod quiet
    fun k lt => down k (by omega)
  have unit : c / tShort s.cfg = 146 := Nat.div_eq_of_lt_le lower inPeriod
  refine ⟨t, after, ?_⟩
  rw [phase, unit]
  rfl

/-- With the button held through any number of frames, the step of the time unit modulo 147 runs. -/
theorem frameStarted_runningStep_many {s : State} (started : FrameStarted s) (sendable : Sendable s.cfg.cs)
    (transmitting : s.regs.mode = .transmitting) {c : Nat} (quiet : NoReset s c)
    (down : ∀ k, k < c → listedButton s k = false) :
    ∃ t, InFrameAfter c s t ∧ runningStep t.regs.phase = stepAt (c / tShort s.cfg % 147) := by
  have pos : 0 < periodCycles s.cfg := Nat.mul_pos (by decide) (tShort_pos s.cfg)
  have unit : c % periodCycles s.cfg / tShort s.cfg = c / tShort s.cfg % 147 := Nat.mod_mul_left_div_self c _ 147
  have parts : c / periodCycles s.cfg * periodCycles s.cfg + c % periodCycles s.cfg = c := Nat.div_add_mod' c _
  have inPeriod := Nat.mod_lt c pos
  rw [← unit]
  generalize c / periodCycles s.cfg = n, c % periodCycles s.cfg = d at *
  subst parts
  obtain ⟨t, frames, again⟩ := frameStarted_repeats_many started transmitting sendable n (noReset_left quiet)
    fun k lt => down k (by omega)
  have transmitting' := frames.held transmitting fun k lt => down k (by omega)
  obtain ⟨u, rest, running⟩ := frameStarted_runningStep_held again (frames.cfg ▸ sendable) transmitting'
    (c := d) (by rwa [periodCycles, frames.cfg]) (noReset_right quiet frames.stim) fun k lt => by
      rw [listedButton_of_drop frames.stim]
      exact down _ (by omega)
  exact ⟨u, frames.trans rest, frames.cfg ▸ running⟩

/-! ### The outputs as a function of time (R129) -/

theorem sendable_of_megacode {cs : Memory} {m : Megacode} (code : cs.megacode = some m) : Sendable cs := by
  by_contra short
  have none2 : cs.read 2 = none := (cs.read_eq_none 2).2 (by unfold Sendable at short; omega)
  simp [Memory.megacode, none2] at code

/-- The ports in a state of a run in which the step of time unit `u` runs. -/
theorem ports_of_runningStep {m : Megacode} {s t : State} {c u : Nat} (started : FrameStarted s)
    (code : s.cfg.cs.megacode = some m) (after : InFrameAfter c s t) (running : runningStep t.regs.phase = stepAt u) :
    t.rfO = rfAt m u ∧ t.ledO = !t.rfO ∧ t.activeO = true := by
  have shows : ShowsCode m t := runSteps_keeps step_showsCode after.run (frameStarted_showsCode started code)
  refine ⟨?_, after.inv.ledInFrame after.inFrame, by simp [State.activeO, after.inFrame]⟩
  rw [← stepRf_stepAt, ← running]
  exact shows.rf after.inFrame

/-- Settles O46: the step of the cycle's time unit runs, and every edge keeps the outputs that the running step calls
for. -/
theorem frameWaveform : Obligations.FrameWaveform := by
  intro s m started code
  have sendable := sendable_of_megacode code
  refine ⟨fun c inFrame quiet => ?_, fun c transmitting quiet down => ?_⟩
  · obtain ⟨t, after, running⟩ := frameStarted_runningStep started sendable inFrame quiet
    exact ⟨t, after.run, ports_of_runningStep started code after running⟩
  · obtain ⟨t, after, running⟩ := frameStarted_runningStep_many started sendable transmitting quiet down
    exact ⟨t, after.run, ports_of_runningStep started code after running⟩

/-! ### The mode up to the boundary (R101) -/

/-- The mode after the Tick of a cycle that is not the boundary's is the mode before it. -/
theorem tickPart_mode {s d u : State} (mode : d.regs.mode = s.regs.mode) (phase : d.regs.phase = s.regs.phase)
    (inside : ¬ (s.regs.phase = 97#7 ∧ s.regs.tmrCnt = 1#16)) {q n : Bool}
    (h : (if s.tickNow then execTick q n d else .next d) = .next u) : u.regs.mode = s.regs.mode := by
  split at h
  · next tick =>
    obtain ⟨-, last⟩ : s.regs.tmrRun = true ∧ s.regs.tmrCnt = 1#16 := by simpa [State.tickNow] using tick
    rw [execTick_mode h, if_neg (fun stop => inside ⟨phase ▸ stop.2, last⟩), mode]
  · cases h
    exact mode

/-- Inside a transmission, away from the boundary's own cycle, only a Release changes the mode. -/
theorem step_mode_inFrame {s t : State} (inv : Inv s) (inFrame : s.regs.mode ≠ .idle) (rst : s.pins.rst = false)
    (inside : ¬ (s.regs.phase = 97#7 ∧ s.regs.tmrCnt = 1#16)) (h : step s = .next t) :
    t.regs.mode = if s.regs.mode = .transmitting ∧ s.pins.btnN = true then .finishing else s.regs.mode := by
  obtain ⟨run, cnt, timed, -⟩ := timerStep_next (s.setBtnQ s.pins.btnN)
  rw [step_of_noReset rst, execCycle_eq, timed, andThen_next] at h
  obtain ⟨v, handled, edge⟩ := andThen_eq_next.1 h
  cases edge
  have live : ((s.setBtnQ s.pins.btnN).setTimer run cnt).regs.gie = true := (live_of_inFrame inv inFrame :)
  obtain ⟨dead, -⟩ | ⟨-, e⟩ :=
    handleEvents_cases s.tickNow s.regs.btnQ s.pins.btnN ((s.setBtnQ s.pins.btnN).setTimer run cnt)
  · exact absurd (dead.symm.trans live) (by simp)
  obtain ⟨u, first, -⟩ := andThen_eq_next.1 (e.symm.trans handled)
  have mode : u.regs.mode = s.regs.mode := tickPart_mode (by simp) (by simp) inside first
  rw [handleEvents_inFrame live first (mode ▸ inFrame)] at handled
  cases handled
  rw [advanceInputs_regs, setMode_mode, mode, modeAfterButton_of_inv inv]

/-- A frame that began Finishing, or in which the button has been up, is Finishing up to its boundary. -/
theorem frameStarted_finishing {s t : State} (started : FrameStarted s) (sendable : Sendable s.cfg.cs) {c : Nat}
    (before : c < frameCycles s.cfg) (quiet : NoReset s c) (run : runSteps c s = .next t)
    (ends : s.regs.mode = .finishing ∨ ∃ k, k < c ∧ listedButton s k = true) : t.regs.mode = .finishing := by
  induction c generalizing t with
  | zero =>
    cases run
    exact ends.resolve_right fun ⟨k, lt, _⟩ => Nat.not_lt_zero k lt
  | succ c ih =>
    obtain ⟨v, after, phase, count⟩ := frameStarted_reaches_cycle started sendable (by omega) (noReset_left quiet)
    obtain ⟨rst, button⟩ := pins_of_noReset (noReset_right quiet after.stim)
    rw [listedButton_of_drop after.stim] at button
    rw [runSteps_add, after.run, andThen_next, runSteps_one] at run
    have inside : ¬ (v.regs.phase = 97#7 ∧ v.regs.tmrCnt = 1#16) := by
      rintro ⟨boundary, last⟩
      have range := stepAt_le_96 ((Nat.div_lt_iff_lt_mul (tShort_pos s.cfg)).2 (Nat.lt_of_succ_lt before))
      have blank : stepAt (c / tShort s.cfg) = 96 := by bv_omega
      have start : stepStart (96 + 1) = 146 := rfl
      rw [last, blank, start] at count
      exact absurd count (Nat.ne_of_lt before)
    have mode := step_mode_inFrame after.inv after.inFrame rst inside run
    have now : (s.regs.mode = .finishing ∨ ∃ k, k < c ∧ listedButton s k = true) ∨ v.pins.btnN = true := by
      obtain finishing | ⟨k, lt, up⟩ := ends
      · exact .inl (.inl finishing)
      · obtain earlier | rfl := Nat.lt_succ_iff_lt_or_eq.1 lt
        · exact .inl (.inr ⟨k, earlier, up⟩)
        · exact .inr (button.trans up)
    rw [mode]
    obtain earlier | up := now
    · rw [ih (by omega) (noReset_left quiet) after.run earlier]
      rfl
    · rw [up]
      cases mode' : v.regs.mode with
      | idle => exact absurd mode' after.inFrame
      | transmitting => rfl
      | finishing => rfl

/-! ### The boundary's own cycle (R126, R169) -/

/-- One cycle before the boundary the step index is 97 and the timer is at 1. -/
theorem frameStarted_reaches_lastCycle {s : State} (started : FrameStarted s) (sendable : Sendable s.cfg.cs) {c : Nat}
    (last : frameCycles s.cfg = c + 1) (quiet : NoReset s c) :
    ∃ t, InFrameAfter c s t ∧ t.regs.phase = 97#7 ∧ t.regs.tmrCnt = 1#16 := by
  obtain ⟨t, after, phase, count⟩ := frameStarted_reaches_cycle started sendable (by omega) quiet
  have pos := tShort_pos s.cfg
  have unit : c / tShort s.cfg = 145 := by
    rw [frameCycles] at last
    exact Nat.div_eq_of_lt_le (by omega) (by omega)
  have blank : stepAt 145 = 96 := rfl
  have start : stepStart (96 + 1) = 146 := rfl
  rw [unit, blank] at phase count
  rw [start, ← frameCycles, last] at count
  exact ⟨t, after, phase, by bv_omega⟩

/-- What SAMPLE, EXPIRE and the stopping BOUNDARY leave for a button event of their cycle. -/
def State.stopped (s : State) : State :=
  ((((s.setBtnQ s.pins.btnN).setTimer false 0#16).setOut false false).setMode .idle).setPhase 0#7

/-- The cycle of the stopping boundary: the stop, and then a Press starts a transmission and a Release is ignored. -/
theorem execCycle_stop {s : State} (inv : Inv s) (finishing : s.regs.mode = .finishing) (phase : s.regs.phase = 97#7)
    (last : s.regs.tmrCnt = 1#16) : execCycle s =
      if pressEdge s.regs.btnQ s.pins.btnN then execPress true s.stopped else .next s.stopped := by
  have inFrame : s.regs.mode ≠ .idle := by simp [finishing]
  obtain ⟨running, -, -⟩ := inv.armed inFrame
  have live := live_of_inFrame inv inFrame
  have tick : s.tickNow = true := by simp [State.tickNow, running, last]
  have expired : timerStep (s.setBtnQ s.pins.btnN) = .next ((s.setBtnQ s.pins.btnN).setTimer false 0#16) := by
    simp [timerStep, running, last, execExpire]
  have stop : execTick s.regs.btnQ s.pins.btnN ((s.setBtnQ s.pins.btnN).setTimer false 0#16) = .next s.stopped := by
    simp [execTick, phaseStep, execBoundary, finishing, phase, State.stopped]
  have ignored : execRelease true s.stopped = .next s.stopped := rfl
  obtain ⟨dead, -⟩ | ⟨-, e⟩ :=
    handleEvents_cases true s.regs.btnQ s.pins.btnN ((s.setBtnQ s.pins.btnN).setTimer false 0#16)
  · exact absurd (dead.symm.trans live) (by simp)
  rw [execCycle_eq, expired, andThen_next, tick, e, if_pos rfl, stop, andThen_next, ignored, ite_self, pressEdge]

/-- Without a Press in its cycle the stopping boundary stops. -/
theorem step_stop {s t : State} (inv : Inv s) (finishing : s.regs.mode = .finishing) (phase : s.regs.phase = 97#7)
    (last : s.regs.tmrCnt = 1#16) (rst : s.pins.rst = false) (noPress : pressEdge s.regs.btnQ s.pins.btnN = false)
    (h : step s = .next t) : Stopped t := by
  rw [step_of_noReset rst, execCycle_stop inv finishing phase last, noPress] at h
  cases h
  simp [Stopped, State.ledO, State.rfO, State.stopped]

/-- With a Press in its cycle a new transmission begins at once (R169). -/
theorem step_stop_press {s t : State} (inv : Inv s) (finishing : s.regs.mode = .finishing)
    (phase : s.regs.phase = 97#7) (last : s.regs.tmrCnt = 1#16) (rst : s.pins.rst = false)
    (press : pressEdge s.regs.btnQ s.pins.btnN = true) (h : step s = .next t) :
    FrameStarted t ∧ t.regs.mode = .transmitting := by
  have inv' := step_inv inv h
  rw [step_of_noReset rst, execCycle_stop inv finishing phase last, if_pos press] at h
  obtain ⟨inFrame, -⟩ | ⟨-, b, read, pressed⟩ := execPress_cases true s.stopped
  · exact absurd rfl inFrame
  rw [pressed] at h
  cases h
  exact ⟨frameStarted_of_regs inv' (by simp) (advanceInputs_cfg _) read (by simp) (by simp) (by simp), by simp⟩

/-! ### The inputs a run uses up (R142) -/

theorem runSteps_stim {k : Nat} {s t : State} (h : runSteps k s = .next t) : t.stim = s.stim.drop k := by
  induction k generalizing s with
  | zero => cases h; rfl
  | succ k ih =>
    rw [runSteps_succ] at h
    obtain ⟨u, first, rest⟩ := andThen_eq_next.1 h
    obtain ⟨-, stim, -⟩ := stepUsesOneInput s u first
    rw [ih rest, stim, List.drop_tail]

/-- After a run without reset `btn_q` holds the level of its last edge (R140). -/
theorem runSteps_btnQ {k : Nat} {s t : State} (quiet : NoReset s (k + 1)) (h : runSteps (k + 1) s = .next t) :
    t.regs.btnQ = listedButton s k := by
  rw [runSteps_add] at h
  obtain ⟨u, before, edge⟩ := andThen_eq_next.1 h
  have stim := runSteps_stim before
  obtain ⟨rst, button⟩ := pins_of_noReset (noReset_right quiet stim)
  rw [runSteps_one, step_of_noReset rst] at edge
  obtain ⟨v, cycle, edge'⟩ := andThen_eq_next.1 edge
  cases edge'
  rw [advanceInputs_regs, execCycle_btnQ cycle, button, listedButton_of_drop stim, Nat.add_zero]

/-! ### What the boundary decides (R126, R231, R106, R169) -/

/-- The boundary of a Transmitting frame with the button down until its last cycle is the turnaround. -/
theorem boundary_repeats {s t : State} (started : FrameStarted s) (transmitting : s.regs.mode = .transmitting)
    (sendable : Sendable s.cfg.cs) {c : Nat} (last : frameCycles s.cfg = c + 1) (quiet : NoReset s (c + 1))
    (run : runSteps (c + 1) s = .next t) (down : ∀ k, k < c → listedButton s k = false) :
    t.regs.phase = 0#7 ∧ t.ledO = true ∧ t.rfO = false ∧ t.regs.tmrCnt.toNat = tShort s.cfg ∧
      t.regs.mode = if listedButton s c then .finishing else .transmitting := by
  obtain ⟨u, after, phase, count⟩ := frameStarted_reaches_turnaround started transmitting sendable (last ▸ quiet)
    fun k lt => down k (by omega)
  rw [last] at after
  cases after.run.symm.trans run
  obtain ⟨led, rf, -⟩ := after.inv.turnaround after.inFrame phase
  refine ⟨phase, led, rf, count, ?_⟩
  have btnQ := runSteps_btnQ quiet run
  cases button : listedButton s c with
  | false => exact after.held transmitting fun k lt => (Nat.lt_succ_iff_lt_or_eq.1 lt).elim (down k) (· ▸ button)
  | true =>
    have notTransmitting : t.regs.mode ≠ .transmitting := fun mode => by
      rw [after.inv.held mode, button] at btnQ
      cases btnQ
    cases mode : t.regs.mode with
    | idle => exact absurd mode after.inFrame
    | transmitting => exact absurd mode notTransmitting
    | finishing => rfl

/-- Settles O47: one cycle before the boundary the mode is known; a Transmitting frame goes to the turnaround, and a
Finishing one stops, after which a Press in the same cycle starts a new transmission. -/
theorem frameBoundaryDecides : Obligations.FrameBoundaryDecides := by
  intro s started sendable quiet
  have pos := tShort_pos s.cfg
  obtain ⟨c, last⟩ : ∃ c, frameCycles s.cfg = c + 2 := ⟨frameCycles s.cfg - 2, by unfold frameCycles; omega⟩
  have before : NoReset s (c + 1) := noReset_left (k := 1) (last ▸ quiet)
  obtain ⟨b, toLast, phase, count⟩ := frameStarted_reaches_lastCycle started sendable last before
  obtain ⟨rst, button⟩ := pins_of_noReset (noReset_right (k := 1) (last ▸ quiet) toLast.stim)
  rw [listedButton_of_drop toLast.stim] at button
  have btnQ := runSteps_btnQ before toLast.run
  have finishing := frameStarted_finishing started sendable (by omega) before toLast.run
  obtain ⟨t, edge⟩ := step_completes toLast.inv (toLast.cfg ▸ sendable)
  have run : runSteps (c + 2) s = .next t := by rw [runSteps_add (c + 1) 1, toLast.run, andThen_next, runSteps_one, edge]
  have pressAt : PressAt s (c + 1) ↔ pressEdge b.regs.btnQ b.pins.btnN = true := by
    simp [PressAt, pressEdge, btnQ, button]
  rw [last] at quiet ⊢
  refine ⟨t, run, fun transmitting down => ?_, fun ends noPress => ?_, fun press => ?_⟩
  · exact boundary_repeats started transmitting sendable last quiet run fun k lt => down k (by omega)
  · have ends' : s.regs.mode = .finishing ∨ ∃ k, k < c + 1 ∧ listedButton s k = true :=
      ends.imp_right fun ⟨k, lt, up⟩ => ⟨k, by omega, up⟩
    exact step_stop toLast.inv (finishing ends') phase count rst (by simpa using mt pressAt.2 noPress) edge
  · have ⟨up, _⟩ := press
    exact step_stop_press toLast.inv (finishing (.inr ⟨c, by omega, up⟩)) phase count rst (pressAt.1 press) edge

end Sys2Proof.Machine

/-! PROOFS. The input monitor (spec/42_input_monitor.md): what SAMPLE does (R140). -/

namespace Sys2Proof.Machine

/-! ### SAMPLE (R140) -/

/-- SAMPLE in any state, also on a pair that is not the state's own `{btn_q, btn_n}`. -/
@[simp] theorem exec_sample (q n : Bool) (s : State) : exec (.sample q n) s = .next (s.setBtnQ n) := rfl

/-! ### The obligation of spec/42_input_monitor.md -/

/-- Settles O14: SAMPLE is the update of `btn_q` alone. -/
theorem sampleRemembersTheLevel : Obligations.SampleRemembersTheLevel := by
  intro q n s
  rw [exec_sample, State.setBtnQ]

end Sys2Proof.Machine

/-! PROOFS. The tick generator (spec/43_tick_generator.md): what its operations do (R150 to R155), and the run from an
armed count to its Tick (R156, R168). -/

namespace Sys2Proof.Machine

/-! ### The operations, in any state (R150 to R155) -/

@[simp] theorem exec_armShort (p : BitVec 6) (s : State) : exec (.armShort p) s = .next (s.arm .short) := rfl
@[simp] theorem exec_armLong (p : BitVec 6) (s : State) : exec (.armLong p) s = .next (s.arm .long) := rfl
@[simp] theorem exec_count (c : Count) (s : State) :
    exec (.count c) s = .next (s.setTimer s.regs.tmrRun (s.regs.tmrCnt - 1#16)) := rfl
@[simp] theorem exec_expire (s : State) : exec .expire s = .next (s.setTimer false 0#16) := rfl

/-- HOLD stops a timer that runs at 0 (log 8). -/
theorem exec_hold_of_runningAtZero {s : State} (zero : s.regs.tmrRun = true ∧ s.regs.tmrCnt = 0#16) (c : Count) :
    exec (.hold c) s = .next (s.setTimer false s.regs.tmrCnt) := by
  obtain ⟨running, count⟩ := zero
  simp [exec, execHold, running, count]

/-- In every other state HOLD changes nothing. -/
theorem exec_hold_of_not_runningAtZero {s : State} (other : ¬ (s.regs.tmrRun = true ∧ s.regs.tmrCnt = 0#16))
    (c : Count) : exec (.hold c) s = .next s := by
  simp [exec, execHold, other]

/-! ### From a running count to its Tick (R156)

No invariant is needed here: a transmission is on, events are enabled and the timer runs. -/

/-- The Tick belongs to the cycle that starts with one cycle left. -/
theorem tickNow_of_running {s : State} (running : s.regs.tmrRun = true) :
    s.tickNow = decide (s.regs.tmrCnt.toNat = 1) := by
  simp [State.tickNow, running, ← BitVec.toNat_inj, Bool.beq_eq_decide_eq]

/-- `k` clock edges lead from `s` to `t`, inside a transmission, and have counted the timer down by `k`; besides the
count only `mode` and `btn_q` may differ. -/
structure OnlyCounted (k : Nat) (s t : State) : Prop where
  run     : runSteps k s = .next t
  inFrame : t.regs.mode ≠ .idle
  count   : t.regs.tmrCnt.toNat = s.regs.tmrCnt.toNat - k
  regs    : t.regs = { s.regs with mode := t.regs.mode, tmrCnt := t.regs.tmrCnt, btnQ := t.regs.btnQ }

theorem OnlyCounted.refl {s : State} (inFrame : s.regs.mode ≠ .idle) : OnlyCounted 0 s s := ⟨rfl, inFrame, rfl, rfl⟩

theorem OnlyCounted.trans {m k : Nat} {s t u : State} (h : OnlyCounted m s t) (h' : OnlyCounted k t u) :
    OnlyCounted (m + k) s u where
  run := by rw [runSteps_add, h.run, andThen_next, h'.run]
  inFrame := h'.inFrame
  count := by rw [h'.count, h.count, Nat.sub_sub]
  regs := by rw [h'.regs, h.regs]

/-- With more than one cycle left an edge has no Tick, so the handlers change the mode alone. -/
theorem onlyCounted_one {s : State} (live : s.regs.gie = true) (inFrame : s.regs.mode ≠ .idle)
    (running : s.regs.tmrRun = true) (more : 2 ≤ s.regs.tmrCnt.toNat) (quiet : NoReset s 1) :
    ∃ t, OnlyCounted 1 s t := by
  obtain ⟨rst, -⟩ := pins_of_noReset quiet
  have noTick : s.tickNow = false := by
    rw [tickNow_of_running running, decide_eq_false_iff_not]
    omega
  obtain ⟨run, cnt, timed, -, -, counted⟩ := timerStep_next (s.setBtnQ s.pins.btnN)
  obtain ⟨rfl, count⟩ := counted running more
  have handled := handleEvents_inFrame (tick := false) (q := s.regs.btnQ) (n := s.pins.btnN)
    (s := (s.setBtnQ s.pins.btnN).setTimer true cnt) live rfl inFrame
  have edge := step_of_noReset rst
  rw [execCycle_eq, timed, andThen_next, noTick, handled, andThen_next] at edge
  refine ⟨_, (runSteps_one s).trans edge, ?_, ?_, ?_⟩ <;> rw [advanceInputs_regs]
  · exact modeAfterButton_ne_idle inFrame _ _
  · exact count
  · simp [State.setMode, State.setTimer, State.setBtnQ, running]

theorem onlyCounted_of_lt {s : State} (live : s.regs.gie = true) (inFrame : s.regs.mode ≠ .idle)
    (running : s.regs.tmrRun = true) (k : Nat) (more : k < s.regs.tmrCnt.toNat) (quiet : NoReset s k) :
    ∃ t, OnlyCounted k s t := by
  induction k with
  | zero => exact ⟨s, .refl inFrame⟩
  | succ k ih =>
    obtain ⟨t, before⟩ := ih (by omega) (noReset_left quiet)
    have live' : t.regs.gie = true := by rw [before.regs, live]
    have running' : t.regs.tmrRun = true := by rw [before.regs, running]
    have more' : 2 ≤ t.regs.tmrCnt.toNat := by rw [before.count]; omega
    obtain ⟨u, edge⟩ := onlyCounted_one live' before.inFrame running' more'
      (noReset_right quiet (runSteps_stim before.run))
    exact ⟨u, before.trans edge⟩

/-! ### The obligations of spec/43_tick_generator.md -/

/-- Settles O18: until the count ends only counting happens, and the Tick belongs to the cycle that finds the count
at 1. -/
theorem tickComesExactlyWhenTheCountEnds : Obligations.TickComesExactlyWhenTheCountEnds := by
  rintro s n k inFrame live running rfl more quiet
  obtain ⟨t, counted⟩ := onlyCounted_of_lt live inFrame running k more quiet
  have running' : t.regs.tmrRun = true := by rw [counted.regs, running]
  refine ⟨t, counted.run, running', counted.count, ?_, ?_, ?_, ?_, ?_, counted.inFrame⟩
  · rw [tickNow_of_running running', counted.count, decide_eq_decide]
    omega
  all_goals rw [counted.regs]

/-- Settles O15: both are `Arm`, the long interval being twice the short one by definition (R9). -/
theorem armLoadsTheInterval : Obligations.ArmLoadsTheInterval := by
  intro p s
  rw [exec_armShort, exec_armLong]
  exact ⟨rfl, rfl⟩

/-- Settles O16: COUNT and EXPIRE by their equations, HOLD by whether the timer runs at 0. -/
theorem countExpireHold : Obligations.CountExpireHold := by
  intro c s
  rw [exec_count, exec_expire]
  exact ⟨rfl, rfl, fun other => exec_hold_of_not_runningAtZero other c,
    fun running zero => exec_hold_of_runningAtZero ⟨running, zero⟩ c⟩

end Sys2Proof.Machine

/-! PROOFS. The scheduler (spec/44_scheduler.md): the cycle as its decoded operations (R165, R167), the inert cycle and
the inert run (R166, R180), the corner cases of the boundary's own cycle (R169), and the clock edge as the operation
decoded from `rst` (R13, R210). -/

namespace Sys2Proof.Machine

/-! ### The parts of a cycle, each in the case that a proof below needs (R103, R154, R155, R165) -/

theorem handleEvents_of_inert {s : State} (inert : s.regs.gie = false) (tick q n : Bool) :
    handleEvents tick q n s = .next s := by
  obtain ⟨-, e⟩ | ⟨live, -⟩ := handleEvents_cases tick q n s
  · exact e
  · exact absurd (inert.symm.trans live) (by simp)

theorem handleEvents_of_live {s : State} (live : s.regs.gie = true) (tick q n : Bool) :
    handleEvents tick q n s = andThen (if tick then execTick q n s else .next s) (fun u =>
      if q && !n then execPress tick u else if !q && n then execRelease tick u else .next u) := by
  obtain ⟨dead, -⟩ | ⟨-, e⟩ := handleEvents_cases tick q n s
  · exact absurd (dead.symm.trans live) (by simp)
  · exact e

theorem timerStep_of_stopped {s : State} (stopped : s.regs.tmrRun = false) : timerStep s = .next s := by
  simp [timerStep, stopped, execHold]

theorem timerStep_of_last {s : State} (running : s.regs.tmrRun = true) (last : s.regs.tmrCnt = 1#16) :
    timerStep s = .next (s.setTimer false 0#16) := by
  simp [timerStep, running, last, execExpire]

/-! ### The handlers of a cycle, as the event decoder names them (R80, R81) -/

/-- The operations decoded from the event vector do what the handlers of the cycle's events do, in the same order: the
operands a handler carries do not matter, and NOEVENT is no event. -/
theorem runOperations_decodeEvent (s t : State) :
    runOperations (decodeEvent s.regs.gie s.eventVector) t = runOperations (s.cycleEvents.map handlerOf) t := by
  rw [decodeEvent, eventVector_tick, eventVector_btnQ, eventVector_btnN, State.cycleEvents]
  cases s.regs.gie with
  | false => rfl
  | true => cases s.tickNow <;> cases s.regs.btnQ <;> cases s.pins.btnN <;> rfl

/-! ### The inert block (R166, R180) -/

/-- With events disabled and the timer stopped, SAMPLE is all that a cycle does. -/
theorem execCycle_of_inert_stopped {s : State} (inert : s.regs.gie = false) (stopped : s.regs.tmrRun = false) :
    execCycle s = .next (s.setBtnQ s.pins.btnN) := by
  rw [execCycle_eq, timerStep_of_stopped (s := s.setBtnQ s.pins.btnN) stopped, andThen_next]
  exact handleEvents_of_inert (s := s.setBtnQ s.pins.btnN) inert _ _ _

/-- An edge without reset completes from an inert state, whatever the store, and leaves an inert state. -/
theorem step_of_inert {s : State} (inv : Inv s) (inert : Inert s) (rst : s.pins.rst = false) :
    ∃ t, step s = .next t ∧ Inv t ∧ Inert t := by
  obtain ⟨-, -, -, stopped, -⟩ := inv.inert inert
  have edge := step_of_noReset rst
  rw [execCycle_of_inert_stopped inert stopped, andThen_next] at edge
  exact ⟨_, edge, step_inv inv edge, by simpa [Inert] using inert⟩

/-- So does a run without reset. -/
theorem runSteps_of_inert {s : State} (inv : Inv s) (inert : Inert s) (n : Nat) (quiet : NoReset s n) :
    ∃ t, runSteps n s = .next t ∧ Inv t ∧ Inert t := by
  induction n with
  | zero => exact ⟨s, rfl, inv, inert⟩
  | succ n ih =>
    obtain ⟨t, before, inv', inert'⟩ := ih (noReset_left quiet)
    obtain ⟨rst, -⟩ := pins_of_noReset (noReset_right quiet (runSteps_stim before))
    obtain ⟨u, edge, after⟩ := step_of_inert inv' inert' rst
    exact ⟨u, by rw [runSteps_add, before, andThen_next, runSteps_one, edge], after⟩

/-! ### A button event in the cycle of a phase step (R100, R167, R169)

None of this needs the invariants: a transmission is on and events are enabled. -/

/-- In the boundary's own cycle the Tick is handled first, so a button event finds what BOUNDARY leaves. -/
theorem execCycle_of_boundaryTick {s : State} (live : s.regs.gie = true) (inFrame : s.regs.mode ≠ .idle)
    (phase : s.regs.phase = 97#7) (running : s.regs.tmrRun = true) (last : s.regs.tmrCnt = 1#16) :
    execCycle s = andThen (execBoundary ((s.setBtnQ s.pins.btnN).setTimer false 0#16)) (fun u =>
      if s.regs.btnQ && !s.pins.btnN then execPress true u
      else if !s.regs.btnQ && s.pins.btnN then execRelease true u else .next u) := by
  have tick : s.tickNow = true := by simp [State.tickNow, running, last]
  have boundary : execTick s.regs.btnQ s.pins.btnN ((s.setBtnQ s.pins.btnN).setTimer false 0#16) =
      execBoundary ((s.setBtnQ s.pins.btnN).setTimer false 0#16) := by
    simp [execTick, phaseStep, inFrame, phase]
  rw [execCycle_eq, timerStep_of_last (s := s.setBtnQ s.pins.btnN) running last, andThen_next, tick,
    handleEvents_of_live (s := (s.setBtnQ s.pins.btnN).setTimer false 0#16) live, if_pos rfl, boundary]

/-- The Tick of a cycle, if there is one, leaves the transmission on, unless BOUNDARY stops it. -/
theorem tickPart_inFrame {tick q n : Bool} {s u : State} (inFrame : s.regs.mode ≠ .idle)
    (goesOn : ¬ (s.regs.mode = .finishing ∧ s.regs.phase = 97#7 ∧ tick = true))
    (h : (if tick then execTick q n s else .next s) = .next u) : u.regs.mode ≠ .idle := by
  cases tick with
  | false => cases h; exact inFrame
  | true =>
    have noStop : ¬ (s.regs.mode = .finishing ∧ s.regs.phase = 97#7) := by simpa using goesOn
    rwa [execTick_mode (q := q) (n := n) h, if_neg noStop]

/-- So a Press after it is ignored. -/
theorem handleEvents_press_inFrame {tick : Bool} {s : State} (inFrame : s.regs.mode ≠ .idle)
    (goesOn : ¬ (s.regs.mode = .finishing ∧ s.regs.phase = 97#7 ∧ tick = true)) :
    handleEvents tick true false s = handleEvents tick false false s := by
  cases gie : s.regs.gie with
  | false => rw [handleEvents_of_inert gie, handleEvents_of_inert gie]
  | true =>
    have sameTick : execTick false false s = execTick true false s := rfl
    rw [handleEvents_of_live gie, handleEvents_of_live gie, sameTick]
    cases first : if tick then execTick true false s else .next s with
    | next u => exact if_neg (tickPart_inFrame inFrame goesOn first)
    | fault f => rfl
    | refused r => rfl

/-! ### The obligations of spec/44_scheduler.md -/

/-- Settles O21: SAMPLE and the tick generator's operation leave what CYCLE hands to its handlers, and those are the
operations decoded from the event vector, since `gie` is still that of the cycle's start. -/
theorem cycleRunsItsDecodedOperations : Obligations.CycleRunsItsDecodedOperations := by
  intro s
  have inOrder : s.cycleOperations = [decodeButton s.buttonWord, decodeTimer s.timerWord] ++
      decodeEvent s.regs.gie s.eventVector := rfl
  obtain ⟨run, cnt, timed, -⟩ := timerStep_next (s.setBtnQ s.pins.btnN)
  have sameGie : ((s.setBtnQ s.pins.btnN).setTimer run cnt).regs.gie = s.regs.gie := rfl
  rw [inOrder, runOperations_append, runOperations_sample_timer, exec, execCycle_eq, timed, andThen_next, andThen_next,
    runOperations_decodeEvent, handleEvents_eq_runOperations sameGie]

/-- Settles O26: a Press is ignored after a Tick that does not stop the transmission, or after none, and SAMPLE leaves
the same state whatever `btn_q` was. -/
theorem pressInAFrameIsIgnored : Obligations.PressInAFrameIsIgnored := by
  intro s _ inFrame goesOn up down
  obtain ⟨run, cnt, timed, -⟩ := timerStep_next (s.setBtnQ false)
  have ignored := handleEvents_press_inFrame (s := (s.setBtnQ false).setTimer run cnt) inFrame goesOn
  have sampled : execCycle (s.setBtnQ false) =
      andThen (timerStep (s.setBtnQ false)) (handleEvents s.tickNow false false) := by
    rw [execCycle_eq, setBtnQ_pins, down]
    rfl
  calc execCycle s = andThen (timerStep (s.setBtnQ false)) (handleEvents s.tickNow true false) := by
        rw [execCycle_eq, up, down]
    _ = execCycle (s.setBtnQ false) := by rw [sampled, timed, andThen_next, andThen_next, ignored]

/-- Settles O40: an inert state that meets R33 is Idle with the LED lit and everything else off (item 2). -/
theorem inertForEver : Obligations.InertForEver := by
  intro s n inv inert quiet
  obtain ⟨t, run, inv', inert'⟩ := runSteps_of_inert inv inert n quiet
  obtain ⟨idle, led, rf, stopped, -⟩ := inv'.inert inert'
  exact ⟨t, run, inert', idle, led, rf, stopped, by simp [State.activeO, idle]⟩

/-- Settles O23: what the cycle does is the update of `btn_q` alone. -/
theorem inertCycleOnlySamples : Obligations.InertCycleOnlySamples :=
  fun _ inert stopped => execCycle_of_inert_stopped inert stopped

/-- Settles O24: BOUNDARY arms the turnaround and leaves Transmitting on, which the Release then turns to Finishing. -/
theorem releaseInTheBoundaryCycleComesAfterIt : Obligations.ReleaseInTheBoundaryCycleComesAfterIt := by
  intro s live transmitting phase running last down up
  have turnaround : execBoundary ((s.setBtnQ true).setTimer false 0#16) =
      .next ((((s.setBtnQ true).setTimer false 0#16).arm .short).setPhase 0#7) := by
    simp [execBoundary, transmitting]
  rw [exec, execCycle_of_boundaryTick live (by simp [transmitting]) phase running last, down, up, turnaround,
    andThen_next]
  simp only [execRelease, setPhase_mode, arm_mode, setTimer_mode, setBtnQ_mode, transmitting]
  rfl

/-- Settles O25: BOUNDARY stops and leaves Idle, where the Press runs step 0 on the byte at offset 0. -/
theorem pressAtTheStopRestartsAtOnce : Obligations.PressAtTheStopRestartsAtOnce := by
  intro s b live finishing phase running last up down read
  have stop : execBoundary ((s.setBtnQ s.pins.btnN).setTimer false 0#16) = .next s.stopped := by
    simp [execBoundary, finishing, State.stopped]
  rw [exec, execCycle_of_boundaryTick live (by simp [finishing]) phase running last, stop, andThen_next, up, down]
  obtain ⟨inFrame, -⟩ | ⟨-, b', read', pressed⟩ := execPress_cases true s.stopped
  · exact absurd rfl inFrame
  obtain rfl : b = b' := Option.some.inj (read.symm.trans read')
  refine pressed.trans ?_
  rw [State.stopped, down]
  rfl

/-- Settles O27: the word of `rst` names one operation (O28), the one that the clock edge runs. -/
theorem stepRunsTheDecodedOperation : Obligations.StepRunsTheDecodedOperation := by
  intro s i decoded
  obtain rfl : decodeReset s.pins.rst = i := by
    simpa [decodeReset] using (everyClockEdgeDecodes s).symm.trans decoded
  refine ⟨?_, fun t h => ?_, fun f h => ?_, fun r h => ?_⟩
  · cases s.pins.rst <;> rfl
  · rw [step, h, andThen_next]
  · rw [step, h, andThen_fault]
  · rw [step, h, andThen_refused]

end Sys2Proof.Machine

/-! PROOFS. The fault and the refusals (spec/60_exceptions.md): only RESET raises or clears `NoValidCode` (R180), a clock
edge stops only in the two cases the spec leaves open (R181), and an invalid store never transmits (R182). -/

namespace Sys2Proof.Machine

/-! ### Which operation touches the fault indication (R26, R180) -/

/-- R20's row of `gie`. -/
theorem gie_mem_writes {i : Instr} : Register.gie ∈ writes i ↔ i = .reset := by
  cases i <;> simp [writes]

/-- RESET records the validity of the store it finds, whatever `gie` was. -/
theorem execReset_gie {s t : State} (h : execReset s = .next t) : t.regs.gie = s.cfg.cs.valid := by
  rw [← (execReset_sameEnvironment h).cfg]
  exact execReset_gieRecordsValidity h

/-! ### The reset edge (R180, R210) -/

/-- An edge with `rst = 1` completes, meets the invariants and records the validity of the store. -/
theorem step_of_reset {s : State} (rst : s.pins.rst = true) :
    ∃ u, step s = .next u ∧ Inv u ∧ u.regs.gie = s.cfg.cs.valid := by
  obtain ⟨b, -, e⟩ := execReset_next s
  refine ⟨_, step_eq_next.2 ⟨_, rfl, .inl ⟨rst, e⟩⟩, inv_advanceInputs.2 (execReset_inv e), ?_⟩
  rw [advanceInputs_regs, execReset_gie e]

/-! ### The stops of a clock edge (R52, R127, R181) -/

/-- The two cases in which the spec tells a model to refuse: a reserved step index (U1), and a fetch of offset 1 or 2
that is beyond the store (U3). -/
def OpenCase (s : State) (r : Refusal) : Prop :=
  (98 ≤ s.regs.phase.toNat ∧ ∃ x, r = .reservedStep x) ∨
    ∃ o, 1 ≤ o ∧ o ≤ 2 ∧ s.cfg.cs.len ≤ o ∧ r = .codeStoreRead o

/-- The answer `o` of a part of an edge that began in `s` is no fault, and a refusal only in an open case. -/
def StopsOnlyInOpenCases (s : State) (o : Result) : Prop :=
  (∀ f, o ≠ .fault f) ∧ ∀ r, o = .refused r → OpenCase s r

theorem StopsOnlyInOpenCases.next (s t : State) : StopsOnlyInOpenCases s (.next t) := by simp [StopsOnlyInOpenCases]

theorem StopsOnlyInOpenCases.andThen {s : State} {o : Result} {f : State → Result} (first : StopsOnlyInOpenCases s o)
    (rest : ∀ t, StopsOnlyInOpenCases s (f t)) : StopsOnlyInOpenCases s (andThen o f) := by
  cases o with
  | next t => exact rest t
  | fault e => exact first
  | refused r => exact first

/-- The step of index `p` fetches offset `p / 32`, which is at most 2; and offset 0 is in every store (R9). -/
theorem phaseStep_stops (s : State) : StopsOnlyInOpenCases s (phaseStep s) := by
  obtain ⟨noFault, refused⟩ := phaseStep_refused (s := s)
  refine ⟨noFault, fun r h => ?_⟩
  obtain reserved | ⟨bit, beyond, rfl⟩ := refused r h
  · exact .inl reserved
  · have := s.cfg.cs.len_pos
    exact .inr ⟨_, by omega, by omega, beyond, rfl⟩

theorem execTick_stops (q n : Bool) (s : State) : StopsOnlyInOpenCases s (execTick q n s) := by
  obtain ⟨-, e⟩ | ⟨-, e⟩ := execTick_cases q n s <;> rw [e]
  · exact .next s s
  · exact phaseStep_stops s

/-- PRESS runs step 0, whose byte every store has. -/
theorem execPress_stops (x : Bool) (s t : State) : StopsOnlyInOpenCases s (execPress x t) := by
  obtain ⟨-, e⟩ | ⟨-, b, -, e⟩ := execPress_cases x t <;> rw [e] <;> exact .next s _

/-- Only the Tick of a cycle can stop; it comes first, so the step index is the one the cycle began with. -/
theorem handleEvents_stops (tick q n : Bool) (s : State) : StopsOnlyInOpenCases s (handleEvents tick q n s) := by
  obtain ⟨-, e⟩ | ⟨-, e⟩ := handleEvents_cases tick q n s <;> rw [e]
  · exact .next s s
  refine .andThen ?_ fun t => ?_
  · split
    · exact execTick_stops q n s
    · exact .next s s
  · split
    · exact execPress_stops tick s t
    split
    · exact .next s _
    · exact .next s t

/-- SAMPLE and the tick generator complete, and leave the step index and the store. -/
theorem execCycle_stops (s : State) : StopsOnlyInOpenCases s (execCycle s) := by
  obtain ⟨run, cnt, e, -⟩ := timerStep_next (s.setBtnQ s.pins.btnN)
  rw [execCycle_eq, e, andThen_next]
  exact handleEvents_stops _ _ _ ((s.setBtnQ s.pins.btnN).setTimer run cnt)

theorem step_stops (s : State) : StopsOnlyInOpenCases s (step s) := by
  cases rst : s.pins.rst with
  | false =>
    rw [step_of_noReset rst]
    exact .andThen (execCycle_stops s) fun t => .next s _
  | true =>
    obtain ⟨u, e, -⟩ := step_of_reset rst
    rw [e]
    exact .next s u

/-- The phase step of a reserved index is refused (R127). -/
theorem phaseStep_of_reserved {s : State} (reserved : 98 ≤ s.regs.phase.toNat) :
    phaseStep s = .refused (.reservedStep (s.regs.phase.extractLsb' 0 5)) := by
  obtain ⟨phase, -⟩ | ⟨phase, -⟩ | ⟨-, e⟩ | ⟨bit, -⟩ := phaseStep_cases s
  · simp [phase] at reserved
  · simp [phase] at reserved
  · exact e
  · omega

/-- Its Tick in a transmission refuses the whole cycle (log 11). -/
theorem execCycle_of_reserved {s : State} (live : s.regs.gie = true) (inFrame : s.regs.mode ≠ .idle)
    (tick : s.tickNow = true) (reserved : 98 ≤ s.regs.phase.toNat) :
    execCycle s = .refused (.reservedStep (s.regs.phase.extractLsb' 0 5)) := by
  obtain ⟨run, cnt, e, -⟩ := timerStep_next (s.setBtnQ s.pins.btnN)
  have refused : execTick s.regs.btnQ s.pins.btnN ((s.setBtnQ s.pins.btnN).setTimer run cnt) =
      .refused (.reservedStep (s.regs.phase.extractLsb' 0 5)) :=
    (if_neg inFrame).trans (phaseStep_of_reserved (s := (s.setBtnQ s.pins.btnN).setTimer run cnt) reserved)
  rw [execCycle_eq, e, andThen_next, tick,
    handleEvents_of_live (s := (s.setBtnQ s.pins.btnN).setTimer run cnt) live, if_pos rfl, refused, andThen_refused]

/-! ### The obligations of spec/60_exceptions.md -/

/-- Settles O20: RESET records the validity of the store in `gie`, which no other operation writes. -/
theorem faultRaisedByResetOnly : Obligations.FaultRaisedByResetOnly := by
  intro i s t h
  constructor
  · rintro rfl
    rw [State.fault, execReset_gie h]
  · intro other
    have kept : s.regs.gie = t.regs.gie := exec_writesOnly h .gie (mt gie_mem_writes.1 other)
    rw [State.fault, State.fault, kept]

/-- Settles O32: of all the parts of an edge only the phase step of a Tick can stop, and it never faults; a reset edge
completes. -/
theorem stepStopsOnlyOnTheTwoOpenCases : Obligations.StepStopsOnlyOnTheTwoOpenCases := by
  intro s
  obtain ⟨noFault, refused⟩ := step_stops s
  refine ⟨noFault, refused, fun rst live inFrame tick reserved => ?_, fun rst => ?_⟩
  · rw [step_of_noReset rst, execCycle_of_reserved live inFrame tick reserved, andThen_refused]
  · obtain ⟨u, e, -⟩ := step_of_reset rst
    exact ⟨u, e⟩

/-- Settles O39: the reset edge leaves an inert state that meets R33, and such a state stays inert (O40). -/
theorem invalidStoreNeverTransmits : Obligations.InvalidStoreNeverTransmits := by
  intro s b n rst read invalid
  obtain ⟨u, e, inv, gie⟩ := step_of_reset rst
  have inert : Inert u := by rw [Inert, gie, valid_of_read read, invalid]
  exact ⟨u, e, inertForEver u n inv inert⟩

end Sys2Proof.Machine

/-! PROOFS. Reset and hazards (spec/70_reset_and_hazards.md): what RESET and a reset edge leave (R210, R211), a button
held through reset (R212), and a Release that comes too late to stop at a boundary (R231). -/

namespace Sys2Proof.Machine

/-! ### RESET (R210) -/

/-- The registers RESET leaves when the store is not valid, the button at level `x` (R210, R211): inert, the LED lit. -/
def inertRegs (x : Bool) : Regs :=
  { mode := .idle, phase := 0#7, curByte := 0#8, led := true, rf := false, gie := false, tmrRun := false,
    tmrCnt := 0#16, btnQ := x }

/-- Bit 7 of the first byte decides between the two register files of R211. -/
theorem execReset_of_read {s : State} {b : Byte} (read : s.cfg.cs.read 0 = some b) : execReset s =
    .next { s with regs := if b.getLsbD 7 then liveRegs s.pins.btnN else inertRegs s.pins.btnN } := by
  obtain ⟨b', read', e⟩ := execReset_next s
  cases read.symm.trans read'
  rw [e]
  split <;> rfl

theorem execReset_regs {s t : State} (h : execReset s = .next t) :
    t.regs = liveRegs s.pins.btnN ∨ t.regs = inertRegs s.pins.btnN := by
  obtain ⟨b, read, -⟩ := execReset_next s
  cases (execReset_of_read read).symm.trans h
  exact ite_eq_or_eq _ _ _

/-- A reset edge leaves one of the two. -/
theorem step_reset_regs {s t : State} (rst : s.pins.rst = true) (h : step s = .next t) :
    t.regs = liveRegs s.pins.btnN ∨ t.regs = inertRegs s.pins.btnN := by
  obtain ⟨u, rfl, ⟨-, reset⟩ | ⟨noReset, -⟩⟩ := step_eq_next.1 h
  · rw [advanceInputs_regs]
    exact execReset_regs reset
  · exact absurd (noReset.symm.trans rst) (by simp)

/-- Either file waits with the timer stopped for a change of the button's level at the reset edge. -/
theorem step_reset_waits {s t : State} (rst : s.pins.rst = true) (h : step s = .next t) :
    t.regs.mode = .idle ∧ t.regs.tmrRun = false ∧ t.regs.btnQ = s.pins.btnN := by
  obtain live | inert := step_reset_regs rst h
  · rw [live]; exact ⟨rfl, rfl, rfl⟩
  · rw [inert]; exact ⟨rfl, rfl, rfl⟩

/-! ### A run in which the button keeps its level (R18, R212) -/

/-- With the timer stopped, a run without reset and without a button edge changes no register. -/
theorem runSteps_of_stopped_noEdge {s : State} (stopped : s.regs.tmrRun = false) (n : Nat) (quiet : NoReset s n)
    (level : ∀ p ∈ s.stim.take n, p.btnN = s.regs.btnQ) : ∃ t, runSteps n s = .next t ∧ t.regs = s.regs := by
  induction n with
  | zero => exact ⟨s, rfl, rfl⟩
  | succ n ih =>
    have earlier : s.stim.take n ⊆ s.stim.take (n + 1) := List.take_subset_take_left _ (Nat.le_succ n)
    obtain ⟨t, before, regs⟩ := ih (noReset_left quiet) fun p mem => level p (earlier mem)
    have stim := runSteps_stim before
    obtain ⟨rst, button⟩ := pins_of_noReset (noReset_right quiet stim)
    have ⟨listed, _⟩ := quiet
    have same : t.pins.btnN = t.regs.btnQ := by
      rw [button, regs, listedButton_of_drop stim, Nat.add_zero, listedButton, List.getElem?_eq_getElem listed]
      exact level _ (List.mem_take_iff_getElem.2 ⟨n, by omega, rfl⟩)
    have edge : step t = .next t.advanceInputs := by
      rw [step_of_noReset rst, execCycle_of_stopped_noEdge (regs ▸ stopped) same, andThen_next]
    exact ⟨_, by rw [runSteps_add, before, andThen_next, runSteps_one, edge], by rw [advanceInputs_regs, regs]⟩

/-! ### Finishing in the turnaround (R101, R231) -/

/-- Away from the boundary's own cycle, a transmission that is Finishing, or sees the button up, is Finishing after it. -/
theorem step_finishing_inFrame {s t : State} (inv : Inv s) (inFrame : s.regs.mode ≠ .idle) (rst : s.pins.rst = false)
    (inside : s.regs.phase ≠ 97#7) (ends : s.regs.mode = .finishing ∨ s.pins.btnN = true) (h : step s = .next t) :
    t.regs.mode = .finishing := by
  rw [step_mode_inFrame inv inFrame rst (fun boundary => inside boundary.1) h]
  cases mode : s.regs.mode with
  | idle => exact absurd mode inFrame
  | transmitting => simpa [mode] using ends
  | finishing => rfl

/-- A turnaround that began Finishing, or in which the button has been up, is Finishing up to its end. -/
theorem turnaround_finishing {s t : State} (inv : Inv s) (inFrame : s.regs.mode ≠ .idle) (phase : s.regs.phase = 0#7)
    {c : Nat} (upTo : c ≤ s.regs.tmrCnt.toNat) (quiet : NoReset s c) (run : runSteps c s = .next t)
    (ends : s.regs.mode = .finishing ∨ ∃ k, k < c ∧ listedButton s k = true) : t.regs.mode = .finishing := by
  induction c generalizing t with
  | zero =>
    cases run
    exact ends.resolve_right fun ⟨k, lt, _⟩ => Nat.not_lt_zero k lt
  | succ c ih =>
    obtain ⟨v, after, phase', -⟩ := inFrame_counts_many inv inFrame c upTo (noReset_left quiet)
    obtain ⟨rst, button⟩ := pins_of_noReset (noReset_right quiet after.stim)
    rw [listedButton_of_drop after.stim] at button
    rw [runSteps_add, after.run, andThen_next, runSteps_one] at run
    have finishing := ih (Nat.le_of_succ_le upTo) (noReset_left quiet) after.run
    refine step_finishing_inFrame after.inv after.inFrame rst (by rw [phase', phase]; decide) ?_ run
    obtain began | ⟨k, lt, up⟩ := ends
    · exact .inl (finishing (.inl began))
    · obtain earlier | rfl := Nat.lt_succ_iff_lt_or_eq.1 lt
      · exact .inl (finishing (.inr ⟨k, earlier, up⟩))
      · exact .inr (button.trans up)

/-- A Transmitting frame with the button down before its boundary's cycle, and up in that cycle or in the turnaround, is
followed by a Finishing one (R231). -/
theorem frameStarted_lateRelease {s : State} (started : FrameStarted s) (transmitting : s.regs.mode = .transmitting)
    (sendable : Sendable s.cfg.cs) (quiet : NoReset s (periodCycles s.cfg))
    (down : ∀ k, k + 1 < frameCycles s.cfg → listedButton s k = false)
    (late : ∃ k, frameCycles s.cfg ≤ k + 1 ∧ k < periodCycles s.cfg ∧ listedButton s k = true) :
    ∃ t, InFrameAfter (periodCycles s.cfg) s t ∧ FrameStarted t ∧ t.regs.mode = .finishing := by
  have units : periodCycles s.cfg = frameCycles s.cfg + tShort s.cfg := Nat.succ_mul 146 _
  rw [units] at quiet late ⊢
  have quietFrame := noReset_left quiet
  obtain ⟨v, toTurnaround, phase, count⟩ :=
    frameStarted_reaches_turnaround started transmitting sendable quietFrame down
  have quiet' := noReset_right quiet toTurnaround.stim
  rw [← count] at quiet' late ⊢
  have ⟨_, inFrame, phase0, _, read⟩ := started
  have byte := toTurnaround.byte ((holdsByte_iff_of_phase_one inFrame phase0).2 read)
  obtain ⟨t, toStep0, again⟩ := turnaround_reaches_frameStarted toTurnaround.inv toTurnaround.inFrame phase byte
    (toTurnaround.cfg ▸ sendable) quiet'
  refine ⟨t, toTurnaround.trans toStep0, again,
    turnaround_finishing toTurnaround.inv toTurnaround.inFrame phase le_rfl quiet' toStep0.run ?_⟩
  obtain ⟨k, fromBoundary, inPeriod, up⟩ := late
  obtain boundary | turnaround := Nat.eq_or_lt_of_le fromBoundary
  · obtain ⟨-, -, -, -, mode⟩ := boundary_repeats started transmitting sendable boundary (boundary ▸ quietFrame)
      (boundary ▸ toTurnaround.run) fun j lt => down j (by omega)
    exact .inl (mode.trans (if_pos up))
  · obtain ⟨j, rfl⟩ := Nat.exists_eq_add_of_le (Nat.lt_succ_iff.1 turnaround)
    exact .inr ⟨j, by omega, (listedButton_of_drop toTurnaround.stim j).trans up⟩

/-- A Press at a later edge of the run is a Press there in the whole run; edge 0 has the run's last edge before it. -/
theorem pressAt_of_drop {s t : State} {m k : Nat} (stim : t.stim = s.stim.drop m) (notFirst : 1 ≤ k) :
    PressAt t k ↔ PressAt s (m + k) := by
  rw [PressAt, PressAt, listedButton_of_drop stim, listedButton_of_drop stim, Nat.add_sub_assoc notFirst]

/-- A Finishing frame stops at its boundary, unless a Press falls in that cycle (R126, R169). -/
theorem finishing_stops {s : State} (started : FrameStarted s) (finishing : s.regs.mode = .finishing)
    (sendable : Sendable s.cfg.cs) (quiet : NoReset s (frameCycles s.cfg))
    (noPress : ¬ PressAt s (frameCycles s.cfg - 1)) : ∃ t, runSteps (frameCycles s.cfg) s = .next t ∧ Stopped t := by
  obtain ⟨t, run, -, stops, -⟩ := frameBoundaryDecides s started sendable quiet
  exact ⟨t, run, stops (.inl finishing) noPress⟩

/-! ### The obligations of spec/70_reset_and_hazards.md -/

/-- Settles O48: the frame after a late Release is Finishing from its step 0 on, so it stops at its own boundary (O47). -/
theorem releaseAfterTheBoundarySendsOneMoreFrame : Obligations.ReleaseAfterTheBoundarySendsOneMoreFrame := by
  intro s started transmitting sendable quiet down late
  obtain ⟨t, after, again, finishing⟩ :=
    frameStarted_lateRelease started transmitting sendable (noReset_left quiet) down late
  refine ⟨⟨t, after.run, again, finishing, after.cfg, after.stim⟩, fun noPress => ?_⟩
  have long : 2 ≤ frameCycles s.cfg := by
    have pos := tShort_pos s.cfg
    unfold frameCycles
    omega
  have noPress' : ¬ PressAt t (frameCycles s.cfg - 1) := by
    rwa [pressAt_of_drop after.stim (by omega), ← Nat.add_sub_assoc (by omega)]
  have quiet' := noReset_right quiet after.stim
  rw [← after.cfg] at noPress' quiet'
  obtain ⟨u, run, stopped⟩ := finishing_stops again finishing (after.cfg ▸ sendable) quiet' noPress'
  rw [after.cfg] at run
  exact ⟨u, by rw [runSteps_add, after.run, andThen_next, run], stopped⟩

/-- Settles O35: both register files are Idle, so no byte is in hand. -/
theorem resetEdgeEstablishesTheInvariants : Obligations.ResetEdgeEstablishesTheInvariants := by
  intro s t rst h
  obtain ⟨u, edge, inv, gie⟩ := step_of_reset rst
  cases edge.symm.trans h
  obtain ⟨cfg, -⟩ := stepUsesOneInput s t h
  obtain ⟨idle, -⟩ := step_reset_waits rst h
  exact ⟨step_reset_regs rst h, inv, by rw [GieRecordsValidity, gie, cfg], holdsByte_of_idle idle⟩

/-- Settles O42: a reset edge leaves the timer stopped and `btn_q` at the line's level, so no edge is seen while the line
keeps it. -/
theorem buttonHeldThroughResetDoesNothing : Obligations.ButtonHeldThroughResetDoesNothing := by
  intro s u n rst h quiet level
  obtain ⟨-, stopped, btnQ⟩ := step_reset_waits rst h
  exact runSteps_of_stopped_noEdge stopped n quiet (btnQ ▸ level)

/-- Settles O19: every store has a byte at offset 0 (R9), and its bit 7 decides between the two register files. -/
theorem resetChecksTheStore : Obligations.ResetChecksTheStore := by
  intro s
  obtain ⟨b, read, -⟩ := execReset_next s
  have reset : exec .reset s = _ := execReset_of_read read
  refine ⟨fun rst => if_pos rst, b, read, fun valid => ?_, fun invalid => ?_⟩
  · rw [reset, valid]
    rfl
  · rw [reset, invalid]
    rfl

end Sys2Proof.Machine
